-- ==== Sys2Proof/Word.lean ====
section
/-! DEFINITION. The widths of DCFDEC's words (spec 00_scope.md R8 and R11, 30_encoding.md R70 and R78).
Bit 0 is the least significant bit of every word (R11); a one-bit value is a `Bool`, `true` being 1. -/

namespace Sys2Proof

/-- A timestamp in the 32-bit field `TS` of the event word, zero-extended from N bits (30_encoding.md R70). -/
abbrev Ts := BitVec 32

/-- One event word (30_encoding.md R70). -/
abbrev EventWord := BitVec 40

/-- One response word (30_encoding.md R78). -/
abbrev ResponseWord := BitVec 64

/-- The frame buffer's contents: bit `k` is the bit of second `k` (00_scope.md R8, 10_state.md R34). -/
abbrev Frame := BitVec 59

end Sys2Proof
end

