-- ==== Sys2Proof/Config.lean ====
section
/-! DEFINITION. The configuration of DCFDEC (spec 00_scope.md R6): what an implementation fixes. It is plain data, so
that a statement can quantify over every configuration. The spec leaves no value free, so there is no free value here. -/

namespace Sys2Proof

/-- The parameters of 00_scope.md R6, in the table's order. `BUS_MAPPING` (20_memory.md R51) is read by no rule and
is not held (assumption log 7). -/
structure Config where
  /-- `TS_WIDTH`, the N of `sub_N`. -/
  tsWidth : Nat
  /-- `TICK_HZ`: documentation only, read by no rule (92_eei_decisions.md D3). -/
  tickHz : Nat
  /-- `DEBOUNCE_MIN`. -/
  debounceMin : Nat
  /-- `SHORT_MIN`. -/
  shortMin : Nat
  /-- `SHORT_MAX`. -/
  shortMax : Nat
  /-- `LONG_MIN`. -/
  longMin : Nat
  /-- `LONG_MAX`. -/
  longMax : Nat
  /-- `SYNC_MIN`. -/
  syncMin : Nat
  /-- `SYNC_MAX`. -/
  syncMax : Nat
  /-- `POWER_ON_DELAY`. -/
  powerOnDelay : Nat
  /-- `PULSE_ACTIVE_LEVEL`; its range, 0 or 1, is the type's. -/
  pulseActiveLevel : Bool
  /-- `RANGE_CHECK`; its range, 0 or 1, is the type's. -/
  rangeCheck : Bool
  deriving DecidableEq, Repr

/-- EX1, the spec's example configuration (00_scope.md R6). Only `State.reset` and the tests use it (log 1). -/
def Config.ex1 : Config where
  tsWidth := 16
  tickHz := 1000
  debounceMin := 20
  shortMin := 40
  shortMax := 140
  longMin := 150
  longMax := 250
  syncMin := 1900
  syncMax := 2200
  powerOnDelay := 3000
  pulseActiveLevel := true
  rangeCheck := false

end Sys2Proof
end

