-- ==== Sys2Proof/Syntax.lean ====
section
/-! DEFINITION. The operations of DCFDEC (spec 30_encoding.md R71), one constructor per row of opcode_table.json. -/

namespace Sys2Proof

/-- An operation, as the agents deliver it (00_scope.md R9). -/
inductive Instr where
  /-- `NOP`: the idle word (42_host_ops.md R170). -/
  | nop
  /-- `EDGE ts, lvl`: one transition of the receiver output, its timestamp and the level after it (40_edge.md R100). -/
  | edge (ts : Ts) (lvl : Bool)
  /-- `TAKE`: take the completed frame, if there is one (42_host_ops.md R172). -/
  | take
  /-- `RESET`: return to the reset state (42_host_ops.md R175). -/
  | reset
  deriving DecidableEq, Repr

end Sys2Proof
end

