-- ==== Sys2Proof/WellFormed.lean ====
section
/-! DEFINITION. Which configurations are well-formed (spec 00_scope.md R7) and which operations a configuration admits
(30_encoding.md R72). -/

namespace Sys2Proof

/-- The constraints of 00_scope.md R7; those on `PULSE_ACTIVE_LEVEL` and `RANGE_CHECK` hold by their type. `TICK_HZ`
stands under no constraint there and is read by no rule. -/
abbrev Config.WellFormed (c : Config) : Prop :=
  (1 ≤ c.tsWidth ∧ c.tsWidth ≤ 32) ∧
  (c.debounceMin ≤ c.shortMin ∧ c.shortMin ≤ c.shortMax) ∧
  (c.shortMax < c.longMin ∧ c.longMin ≤ c.longMax) ∧
  (c.longMax < c.syncMin ∧ c.syncMin ≤ c.syncMax ∧ c.syncMax ≤ 2 ^ c.tsWidth - 1) ∧
  c.powerOnDelay ≤ 2 ^ c.tsWidth - 1

/-- An operation of the given configuration: an `EDGE` carries an N-bit timestamp (30_encoding.md R72); the other
operations carry nothing. -/
abbrev Instr.WellFormed (c : Config) : Instr → Prop
  | .nop => True
  | .edge ts _ => ts.toNat < 2 ^ c.tsWidth
  | .take => True
  | .reset => True

end Sys2Proof
end

