-- ==== Sys2Proof/Decode.lean ====
section
/-! DEFINITION. The decoder of event words (spec 30_encoding.md R70 to R77), total over all 40-bit words and refusing by
name, and after it the encoder. -/

namespace Sys2Proof

/-- Why an event word is illegal: the three reasons of the decoder of 30_encoding.md R77. -/
inductive IllegalWord where
  /-- "reserved bits nonzero": an `EDGE` word with a nonzero bit in [7:3] (R74). -/
  | reservedBitsNonzero
  /-- "timestamp wider than N": an `EDGE` word with a nonzero bit of `TS` at position N or above (R72). -/
  | timestampWiderThanN
  /-- "operand bits nonzero in non-EDGE word": a nonzero bit in [39:2] of a `NOP`, `TAKE` or `RESET` word (R75). -/
  | operandBitsNonzero
  deriving DecidableEq, Repr

/-- The field `OP`, word[1:0] (30_encoding.md R70). -/
def opField (w : EventWord) : BitVec 2 := w.extractLsb 1 0

/-- The field `LVL`, word[2] (30_encoding.md R70). -/
def lvlField (w : EventWord) : Bool := w.getLsbD 2

/-- The reserved bits, word[7:3] (30_encoding.md R70). -/
def reservedField (w : EventWord) : BitVec 5 := w.extractLsb 7 3

/-- The field `TS`, word[39:8] (30_encoding.md R70). -/
def tsField (w : EventWord) : Ts := w.extractLsb 39 8

/-- The operand bits of a word that is no `EDGE`, word[39:2] (30_encoding.md R75). -/
def operandField (w : EventWord) : BitVec 38 := w.extractLsb 39 2

/-- The decoder of 30_encoding.md R77. When the bits of `TS` at N and above are 0, word[8+N-1:8] zero-extended is the
whole field `TS` (R70). -/
def decode (c : Config) (w : EventWord) : Except IllegalWord Instr :=
  if opField w = 1#2 then
    if reservedField w ≠ 0#5 then .error .reservedBitsNonzero
    else if tsField w >>> c.tsWidth ≠ 0#32 then .error .timestampWiderThanN
    else .ok (.edge (tsField w) (lvlField w))
  else if operandField w ≠ 0#38 then .error .operandBitsNonzero
  else if opField w = 0#2 then .ok .nop
  else if opField w = 2#2 then .ok .take
  else .ok .reset

/-- The value of `OP` for each operation (30_encoding.md R71). -/
def opCode : Instr → BitVec 2
  | .nop => 0#2
  | .edge _ _ => 1#2
  | .take => 2#2
  | .reset => 3#2

/-- The event word of an operation (30_encoding.md R70 and R75): TS, five reserved zeros, LVL, OP. -/
def encode (i : Instr) : EventWord :=
  match i with
  | .nop => 0#38 ++ opCode .nop
  | .edge ts lvl => ts ++ 0#5 ++ BitVec.ofBool lvl ++ opCode (.edge ts lvl)
  | .take => 0#38 ++ opCode .take
  | .reset => 0#38 ++ opCode .reset

/-- The event word whose low `nbits` bits are those of `w` and whose other bits are 0. Bits are numbered from the least
significant end of the one 40-bit word, as in opcode_table.json. -/
def tableWord (nbits w : Nat) : EventWord := BitVec.ofNat 40 (w % 2 ^ nbits)

/-- What the decoder reads from the table's word, under the configuration of `State.reset` (log 1). -/
def decodeTableWord (nbits w : Nat) : Option Instr :=
  match decode Config.ex1 (tableWord nbits w) with
  | .ok i => some i
  | .error _ => none

end Sys2Proof
end

