-- ==== Sys2Proof/Machine/State.lean ====
section
/-! DEFINITION. The state of DCFDEC as plain data: `Regs` is the register table of spec 10_state.md R20, one field per
row and nothing else; `State` puts beside it the fixed configuration (00_scope.md R6) and the agents (00_scope.md R9). -/

namespace Sys2Proof.Machine

/-- The decoder state `STATE` (10_state.md R23); its codes are `DecoderState.code`. -/
inductive DecoderState where
  | powerOnDelay
  | syncSearch
  | receivingOne
  | receivingZero
  deriving DecidableEq, Repr

/-- The values of `LAST_OUTCOME` (30_encoding.md R80); their codes are `FrameOutcome.code`. The reserved codes 11 to 15
are never written, so they have no constructor. -/
inductive FrameOutcome where
  | none
  | committed
  | shortFrame
  | markerFail
  | parityMinuteFail
  | parityHourFail
  | parityDateFail
  | widthFail
  | levelFail
  | gapFail
  | rangeFail
  deriving DecidableEq, Repr

/-- The registers of DCFDEC: the table of 10_state.md R20, row by row. -/
structure Regs where
  /-- `STATE` -/
  state : DecoderState
  /-- `POD_REF_TS` -/
  podRefTs : Ts
  /-- `POD_REF_VALID` -/
  podRefValid : Bool
  /-- `LAST_EDGE_TS` -/
  lastEdgeTs : Ts
  /-- `LAST_EDGE_VALID` -/
  lastEdgeValid : Bool
  /-- `LAST_LEAD_TS` -/
  lastLeadTs : Ts
  /-- `LAST_LEAD_VALID` -/
  lastLeadValid : Bool
  /-- `FRAME` -/
  frame : Frame
  /-- `COUNT` -/
  count : BitVec 6
  /-- `R_MINUTE` -/
  rMinute : BitVec 7
  /-- `R_HOUR` -/
  rHour : BitVec 6
  /-- `R_DAY` -/
  rDay : BitVec 6
  /-- `R_DOW` -/
  rDow : BitVec 3
  /-- `R_MONTH` -/
  rMonth : BitVec 5
  /-- `R_YEAR` -/
  rYear : BitVec 8
  /-- `FULL` -/
  full : Bool
  /-- `OVERRUN` -/
  overrun : Bool
  /-- `LAST_OUTCOME` -/
  lastOutcome : FrameOutcome
  deriving DecidableEq, Repr

/-- Every register at its reset value (10_state.md R44). -/
def Regs.reset : Regs where
  state := .powerOnDelay
  podRefTs := 0
  podRefValid := false
  lastEdgeTs := 0
  lastEdgeValid := false
  lastLeadTs := 0
  lastLeadValid := false
  frame := 0
  count := 0
  rMinute := 0
  rHour := 0
  rDay := 0
  rDow := 0
  rMonth := 0
  rYear := 0
  full := false
  overrun := false
  lastOutcome := .none

/-- The three agents of 00_scope.md R9. -/
inductive Agent where
  | edgeSource
  | consumer
  | resetSource
  deriving DecidableEq, Repr

/-- A response word and the agent it was returned to (00_scope.md R14, `respond`). -/
structure Response where
  agent : Agent
  word : ResponseWord
  deriving DecidableEq, Repr

/-- The whole of what a step reads and writes. -/
structure State where
  /-- The registers (10_state.md R20). -/
  regs : Regs
  /-- The configuration (00_scope.md R6): fixed, no operation writes it (10_state.md R43). -/
  cfg : Config
  /-- The words the edge source has issued and the block has not yet performed, oldest first. -/
  edgeQueue : List EventWord
  /-- The same for the consumer. -/
  consumerQueue : List EventWord
  /-- The same for the reset source. -/
  resetQueue : List EventWord
  /-- The interleaving of the agents that 20_memory.md R53 leaves free: whose word is performed next, and so on. -/
  schedule : List Agent
  /-- The agent whose operation is being performed. -/
  issuer : Agent
  /-- The responses returned so far, oldest first (30_encoding.md R78). -/
  responses : List Response
  deriving DecidableEq, Repr

/-- Power-on reset (42_host_ops.md R176): the registers as 10_state.md R44 says; the configuration EX1 (log 1); no
operation issued and no response returned yet (log 2). -/
def State.reset : State where
  regs := Regs.reset
  cfg := Config.ex1
  edgeQueue := []
  consumerQueue := []
  resetQueue := []
  schedule := []
  issuer := .edgeSource
  responses := []

/-- Why the machine stops with a fault. DCFDEC itself raises none (60_exceptions.md R200). -/
inductive Fault where
  /-- Raised by `pushBit` when `COUNT` is 59 or more, where 20_memory.md R62 gives the bit push no meaning. SAFE: no state
  with the invariant of 10_state.md R35 reaches it (log 5). -/
  | pushPastFrame
  deriving DecidableEq, Repr

/-- Why the model gives an input no meaning (60_exceptions.md R201). -/
inductive Refusal where
  /-- Raised by an arm of `exec` for an instruction that has no meaning yet. SAFE. No arm raises it now. -/
  | notModelled (mnemonic : String)
  /-- Raised by `step` for an illegal event word, with the reason (30_encoding.md R76). SAFE: it errs toward
  unprovable. The outcome ends the run, so it is the refusal mark the rule asks for (log 4). -/
  | illegalWord (why : IllegalWord)
  /-- Raised by `step` under a configuration that is not well-formed (00_scope.md R7). SAFE: it errs toward
  unprovable. -/
  | illFormedConfiguration
  deriving DecidableEq, Repr

end Sys2Proof.Machine
end

