-- ==== Sys2Proof/Machine/Operands.lean ====
section
/-! DEFINITION. The operands of the rules: timestamps and their differences (spec 00_scope.md R12, 40_edge.md R102 and
R107), the edge kind (R103), BCD digits (00_scope.md R13, 30_encoding.md R83) and the numeric codes of the two
enumerated registers (10_state.md R23, 30_encoding.md R80). -/

namespace Sys2Proof.Machine

/-- `sub_N(a, b) = (a - b) mod 2^N` (00_scope.md R12), as an unsigned number. For N up to 32 the 32-bit difference
reduced mod 2^N is that value. -/
def subN (c : Config) (a b : Ts) : Nat := (a - b).toNat % 2 ^ c.tsWidth

/-- The width of an edge: the time since the last accepted edge (40_edge.md R102). -/
def pulseWidth (c : Config) (ts : Ts) (r : Regs) : Nat := subN c ts r.lastEdgeTs

/-- The interval of a leading edge: the time since the last recorded leading edge (40_edge.md R107 and R109). -/
def interval (c : Config) (ts : Ts) (r : Regs) : Nat := subN c ts r.lastLeadTs

/-- The time since the power-on reference (40_edge.md R106). -/
def podElapsed (c : Config) (ts : Ts) (r : Regs) : Nat := subN c ts r.podRefTs

/-- `lead = (lvl = PULSE_ACTIVE_LEVEL)` (40_edge.md R103). -/
def isLead (c : Config) (lvl : Bool) : Bool := lvl == c.pulseActiveLevel

/-- `bcd(t, u) = 10 * t + u` on raw digits, an unbounded natural number (00_scope.md R13). -/
def bcd {m n : Nat} (tens : BitVec m) (units : BitVec n) : Nat := 10 * tens.toNat + units.toNat

/-- The codes of `STATE` (10_state.md R23). -/
def DecoderState.code : DecoderState → BitVec 2
  | .powerOnDelay => 0
  | .syncSearch => 1
  | .receivingOne => 2
  | .receivingZero => 3

/-- The codes of `LAST_OUTCOME` (30_encoding.md R80). -/
def FrameOutcome.code : FrameOutcome → BitVec 4
  | .none => 0
  | .committed => 1
  | .shortFrame => 2
  | .markerFail => 3
  | .parityMinuteFail => 4
  | .parityHourFail => 5
  | .parityDateFail => 6
  | .widthFail => 7
  | .levelFail => 8
  | .gapFail => 9
  | .rangeFail => 10

/-- The minute's digits `f[27:25]`, `f[24:21]` combined (41_frame_decode.md R145). -/
def frameMinute (f : Frame) : Nat := bcd (f.extractLsb 27 25) (f.extractLsb 24 21)

/-- The hour (41_frame_decode.md R145). -/
def frameHour (f : Frame) : Nat := bcd (f.extractLsb 34 33) (f.extractLsb 32 29)

/-- The day of the month (41_frame_decode.md R145). -/
def frameDay (f : Frame) : Nat := bcd (f.extractLsb 41 40) (f.extractLsb 39 36)

/-- The day of the week, one binary field (30_encoding.md R83, 41_frame_decode.md R145). -/
def frameDow (f : Frame) : Nat := (f.extractLsb 44 42).toNat

/-- The month (41_frame_decode.md R145). -/
def frameMonth (f : Frame) : Nat := bcd (f.extractLsb 49 49) (f.extractLsb 48 45)

/-- The year within the century (41_frame_decode.md R145). -/
def frameYear (f : Frame) : Nat := bcd (f.extractLsb 57 54) (f.extractLsb 53 50)

end Sys2Proof.Machine
end

