-- ==== Sys2Proof/Machine/Flags.lean ====
section
/-! DEFINITION. The tests of the rules: debounce (spec 40_edge.md R104), the power-on delay (R106), the sync window (R107),
the classification of a pulse (R108), markers, parity and range (41_frame_decode.md R142 to R146). -/

namespace Sys2Proof.Machine

/-- The edge is ignored: there is a last accepted edge and the width is below `DEBOUNCE_MIN` (40_edge.md R104). -/
def debounced (c : Config) (ts : Ts) (r : Regs) : Bool :=
  r.lastEdgeValid && decide (pulseWidth c ts r < c.debounceMin)

/-- The power-on delay has passed (40_edge.md R106). -/
def delayPassed (c : Config) (ts : Ts) (r : Regs) : Bool := decide (c.powerOnDelay ≤ podElapsed c ts r)

/-- The interval lies in the sync window, both bounds included (40_edge.md R107). -/
def inSyncWindow (c : Config) (i : Nat) : Bool := decide (c.syncMin ≤ i) && decide (i ≤ c.syncMax)

/-- The edge is a minute boundary: the test of `sync_eval` (40_edge.md R107). -/
def minuteBoundary (c : Config) (ts : Ts) (lead : Bool) (r : Regs) : Bool :=
  lead && r.lastLeadValid && inSyncWindow c (interval c ts r)

/-- The bit a pulse width encodes, if any: 0 in the short window, 1 in the long one (40_edge.md R108). -/
def classify (c : Config) (w : Nat) : Option Bool :=
  if c.shortMin ≤ w ∧ w ≤ c.shortMax then some false
  else if c.longMin ≤ w ∧ w ≤ c.longMax then some true
  else none

/-- The exclusive-or of all bits: `true` when the number of one bits is odd (00_scope.md R13). -/
def xorReduce {w : Nat} (v : BitVec w) : Bool := (List.range w).foldl (fun p k => xor p (v.getLsbD k)) false

/-- `FRAME[0] = 0` and `FRAME[20] = 1` (41_frame_decode.md R142). -/
def markersValid (f : Frame) : Bool := !f.getLsbD 0 && f.getLsbD 20

/-- Odd parity over the minute group (41_frame_decode.md R143). -/
def minuteParityOdd (f : Frame) : Bool := xorReduce (f.extractLsb 28 21)

/-- Odd parity over the hour group (41_frame_decode.md R143). -/
def hourParityOdd (f : Frame) : Bool := xorReduce (f.extractLsb 35 29)

/-- Odd parity over the date group (41_frame_decode.md R143). -/
def dateParityOdd (f : Frame) : Bool := xorReduce (f.extractLsb 58 36)

/-- `in_range(f)` (41_frame_decode.md R146): every digit at most 9, every field in its calendar range. -/
def inRange (f : Frame) : Bool :=
  decide ((f.extractLsb 24 21).toNat ≤ 9) && decide ((f.extractLsb 32 29).toNat ≤ 9) &&
  decide ((f.extractLsb 39 36).toNat ≤ 9) && decide ((f.extractLsb 48 45).toNat ≤ 9) &&
  decide ((f.extractLsb 53 50).toNat ≤ 9) && decide ((f.extractLsb 57 54).toNat ≤ 9) &&
  decide (frameMinute f ≤ 59) && decide (frameHour f ≤ 23) &&
  decide (1 ≤ frameDay f ∧ frameDay f ≤ 31) && decide (1 ≤ frameDow f ∧ frameDow f ≤ 7) &&
  decide (1 ≤ frameMonth f ∧ frameMonth f ≤ 12)

end Sys2Proof.Machine
end

