-- ==== Sys2Proof/Machine/Ops.lean ====
section
/-! DEFINITION. The named operations over the registers: the three storage primitives (spec 20_memory.md R62), `sync_eval`
(40_edge.md R107), the framing-error action `resync`, which stands where other machines take an exception (R110,
60_exceptions.md R207), the recording of an edge (R111), `respond` (00_scope.md R14), and what the agents deliver
(20_memory.md R53). There is no return from a resync (60_exceptions.md R208). -/

namespace Sys2Proof.Machine

/-- `FRAME[k] <- b`. -/
def setFrameBit (f : Frame) (k : Nat) (b : Bool) : Frame :=
  (f &&& ~~~(1#59 <<< k)) ||| (BitVec.ofNat 59 b.toNat <<< k)

/-- The bit push of 20_memory.md R62: `FRAME[COUNT] <- b ; COUNT <- COUNT + 1`, with `COUNT < 59` before. With `COUNT` at
59 or above the rule gives no meaning and the model faults (log 5). -/
def pushBit (b : Bool) (r : Regs) : Except Fault Regs :=
  if r.count.toNat < 59 then
    .ok { r with frame := setFrameBit r.frame r.count.toNat b, count := r.count + 1 }
  else .error .pushPastFrame

/-- The frame clear of 20_memory.md R62. -/
def clearFrame (r : Regs) : Regs := { r with frame := 0, count := 0 }

/-- The result write of 20_memory.md R62: all six fields of the frame in one step (41_frame_decode.md R145). -/
def writeResult (f : Frame) (r : Regs) : Regs :=
  { r with
    rMinute := BitVec.ofNat 7 (frameMinute f)
    rHour := BitVec.ofNat 6 (frameHour f)
    rDay := BitVec.ofNat 6 (frameDay f)
    rDow := BitVec.ofNat 3 (frameDow f)
    rMonth := BitVec.ofNat 5 (frameMonth f)
    rYear := BitVec.ofNat 8 (frameYear f) }

/-- `sync_eval(ts, lead)` (40_edge.md R107): a minute boundary starts a frame; any other edge changes nothing. -/
def syncEval (c : Config) (ts : Ts) (lead : Bool) (r : Regs) : Regs :=
  if minuteBoundary c ts lead r then { clearFrame r with state := .receivingOne } else r

/-- `resync(code, ts, lead)` (40_edge.md R110): discard the frame in progress, record the outcome, go to `SyncSearch` and
evaluate the same edge once more as a minute boundary. -/
def resync (c : Config) (code : FrameOutcome) (ts : Ts) (lead : Bool) (r : Regs) : Regs :=
  syncEval c ts lead { clearFrame r with lastOutcome := code, state := .syncSearch }

/-- The recording of an accepted edge (40_edge.md R111), after the state's rule. -/
def recordEdge (ts : Ts) (lead : Bool) (r : Regs) : Regs :=
  if lead && decide (r.state ≠ .powerOnDelay) then
    { r with lastEdgeTs := ts, lastEdgeValid := true, lastLeadTs := ts, lastLeadValid := true }
  else { r with lastEdgeTs := ts, lastEdgeValid := true }

/-- `respond(r)`: return the response word to the agent that issued the operation (00_scope.md R14). -/
def respond (w : ResponseWord) (s : State) : State := { s with responses := s.responses ++ [⟨s.issuer, w⟩] }

/-- The level output `frame_ready = FULL` (60_exceptions.md R206). -/
def frameReady (s : State) : Bool := s.regs.full

/-- The words an agent has issued and the block has not yet performed. -/
def queueOf (s : State) : Agent → List EventWord
  | .edgeSource => s.edgeQueue
  | .consumer => s.consumerQueue
  | .resetSource => s.resetQueue

/-- The state with one agent's queue replaced. -/
def setQueue (s : State) (a : Agent) (q : List EventWord) : State :=
  match a with
  | .edgeSource => { s with edgeQueue := q }
  | .consumer => { s with consumerQueue := q }
  | .resetSource => { s with resetQueue := q }

/-- The agent `a` is served: its turn leaves the schedule, its queue becomes `q`, and it is the issuer. -/
def serve (s : State) (a : Agent) (turns : List Agent) (q : List EventWord) : State :=
  { setQueue s a q with schedule := turns, issuer := a }

/-- What the block performs next (20_memory.md R53): `none` when the schedule gives nobody a turn; otherwise the word of
the agent whose turn it is, and the state in which that agent is served. An agent with nothing to deliver delivers the
idle word `NOP` (00_scope.md R9). -/
def fetch (s : State) : Option (EventWord × State) :=
  match s.schedule with
  | [] => none
  | a :: turns =>
    match queueOf s a with
    | [] => some (encode .nop, serve s a turns [])
    | w :: rest => some (w, serve s a turns rest)

/-- The word `w` issued by the agent `a` before anything else, that agent's turn being next. -/
def issueFirst (s : State) (a : Agent) (w : EventWord) : State :=
  { setQueue s a (w :: queueOf s a) with schedule := a :: s.schedule }

/-- The agent expected to issue a word, by its field `OP` (30_encoding.md R71); an idle word is taken from the edge
source. Only `State.withFetchWord` uses it: the block enforces no roles (60_exceptions.md R210). -/
def usualAgent (w : EventWord) : Agent :=
  if opField w = 2#2 then .consumer else if opField w = 3#2 then .resetSource else .edgeSource

end Sys2Proof.Machine
end

