-- ==== Sys2Proof/Machine/FrameDecode.lean ====
section
/-! DEFINITION. `decode_and_commit()` (spec 41_frame_decode.md R140): the checks in their order, then the commit or the
discard. It runs only inside `EDGE`, when a bit push makes `COUNT = 59` (R141). -/

namespace Sys2Proof.Machine

/-- The first check that fails, in the order of 41_frame_decode.md R144; `none` for a frame that passes every check. -/
def failedCheck (c : Config) (f : Frame) : Option FrameOutcome :=
  if !markersValid f then some .markerFail
  else if minuteParityOdd f then some .parityMinuteFail
  else if hourParityOdd f then some .parityHourFail
  else if dateParityOdd f then some .parityDateFail
  else if c.rangeCheck && !inRange f then some .rangeFail
  else none

/-- The commit (41_frame_decode.md R148), step by step: `OVERRUN`, the result register, `FULL`, `LAST_OUTCOME`. -/
def commitFrame (f : Frame) (r : Regs) : Regs :=
  { writeResult f { r with overrun := r.overrun || r.full } with full := true, lastOutcome := .committed }

/-- `decode_and_commit()` (41_frame_decode.md R140): a failed check is recorded and the frame discarded (R147). -/
def decodeAndCommit (c : Config) (r : Regs) : Regs :=
  match failedCheck c r.frame with
  | some code => { r with lastOutcome := code }
  | none => commitFrame r.frame r

end Sys2Proof.Machine
end

