-- ==== Sys2Proof/Machine/Edge.lean ====
section
/-! DEFINITION. The operation `EDGE` (spec 40_edge.md R100), one definition per part of its pseudocode. -/

namespace Sys2Proof.Machine

/-- The first accepted edge after reset sets the delay reference (40_edge.md R106). -/
def setPodReference (ts : Ts) (r : Regs) : Regs :=
  if r.podRefValid then r else { r with podRefTs := ts, podRefValid := true }

/-- An accepted edge in `PowerOnDelay` (40_edge.md R106): the reference first, then the test of the delay. -/
def edgePowerOnDelay (c : Config) (ts : Ts) (lead : Bool) (r : Regs) : Regs :=
  if delayPassed c ts (setPodReference ts r) then
    syncEval c ts lead { setPodReference ts r with state := .syncSearch }
  else setPodReference ts r

/-- An accepted edge in `SyncSearch` (40_edge.md R107). -/
def edgeSyncSearch (c : Config) (ts : Ts) (lead : Bool) (r : Regs) : Regs := syncEval c ts lead r

/-- A classified bit in `ReceivingOne`: push it; the 59th is followed by the decode and leaves the receiving states
(40_edge.md R108, 41_frame_decode.md R141). -/
def receiveBit (c : Config) (b : Bool) (r : Regs) : Except Fault Regs :=
  match pushBit b r with
  | .error e => .error e
  | .ok r1 =>
    if r1.count = 59#6 then .ok { decodeAndCommit c r1 with state := .syncSearch }
    else .ok { r1 with state := .receivingZero }

/-- An accepted edge in `ReceivingOne` (40_edge.md R108). -/
def edgeReceivingOne (c : Config) (ts : Ts) (lead : Bool) (r : Regs) : Except Fault Regs :=
  if lead then .ok (resync c .levelFail ts lead r)
  else
    match classify c (pulseWidth c ts r) with
    | none => .ok (resync c .widthFail ts lead r)
    | some b => receiveBit c b r

/-- An accepted edge in `ReceivingZero` (40_edge.md R109). -/
def edgeReceivingZero (c : Config) (ts : Ts) (lead : Bool) (r : Regs) : Regs :=
  if !lead then resync c .levelFail ts lead r
  else if interval c ts r < c.syncMin then { r with state := .receivingOne }
  else if interval c ts r ≤ c.syncMax then resync c .shortFrame ts lead r
  else resync c .gapFail ts lead r

/-- The dispatch of an accepted edge on `STATE` (40_edge.md R105). -/
def edgeByState (c : Config) (ts : Ts) (lead : Bool) (r : Regs) : Except Fault Regs :=
  match r.state with
  | .powerOnDelay => .ok (edgePowerOnDelay c ts lead r)
  | .syncSearch => .ok (edgeSyncSearch c ts lead r)
  | .receivingOne => edgeReceivingOne c ts lead r
  | .receivingZero => .ok (edgeReceivingZero c ts lead r)

/-- `EDGE ts, lvl` (40_edge.md R100): debounce (R104), edge kind (R103), dispatch (R105), recording (R111). -/
def execEdge (ts : Ts) (lvl : Bool) (s : State) : Host.Outcome State Fault Refusal :=
  if debounced s.cfg ts s.regs then .next s
  else
    match edgeByState s.cfg ts (isLead s.cfg lvl) s.regs with
    | .error e => .fault e
    | .ok r => .next { s with regs := recordEdge ts (isLead s.cfg lvl) r }

end Sys2Proof.Machine
end

