-- ==== Sys2Proof/Machine/HostOps.lean ====
section
/-! DEFINITION. The operations that carry no edge (spec 42_host_ops.md): `NOP` (R170), `TAKE` (R172) and `RESET` (R175). -/

namespace Sys2Proof.Machine

/-- `NOP` (42_host_ops.md R170): nothing. -/
def execNop (s : State) : Host.Outcome State Fault Refusal := .next s

/-- The response word (30_encoding.md R78). -/
def responseWord (r : Regs) : ResponseWord :=
  (r.rYear ++ 0#3 ++ r.rMonth ++ 0#5 ++ r.rDow ++ 0#2 ++ r.rDay ++ 0#2 ++ r.rHour ++
    0#1 ++ r.rMinute ++ r.lastOutcome.code ++ 0#2 ++ BitVec.ofBool r.overrun ++ BitVec.ofBool r.full).setWidth 64

/-- `TAKE` (42_host_ops.md R172): respond with the result as it stands, then clear `FULL` and `OVERRUN`. -/
def execTake (s : State) : Host.Outcome State Fault Refusal :=
  .next { respond (responseWord s.regs) s with regs := { s.regs with full := false, overrun := false } }

/-- `RESET` (42_host_ops.md R175): every register to its reset value. The configuration and what the agents have issued
or received are no registers and stay. -/
def execReset (s : State) : Host.Outcome State Fault Refusal := .next { s with regs := Regs.reset }

end Sys2Proof.Machine
end

