-- ==== Sys2Proof/Machine/Step.lean ====
section
/-! DEFINITION. One step: one operation, performed completely (spec 00_scope.md R10). -/

namespace Sys2Proof.Machine

/-- One step. A configuration that is not well-formed is refused (00_scope.md R7); with no operation to perform nothing
changes (40_edge.md R115); an illegal word is refused with its reason (30_encoding.md R76). -/
def step (s : State) : Host.Outcome State Fault Refusal :=
  if s.cfg.WellFormed then
    match fetch s with
    | none => .next s
    | some (w, s1) =>
      match decode s1.cfg w with
      | .error why => .refused (.illegalWord why)
      | .ok i => exec i s1
  else .refused .illFormedConfiguration

/-- `s` with the table's word issued first, by its usual agent. -/
def State.withFetchWord (s : State) (nbits w : Nat) : State :=
  issueFirst s (usualAgent (tableWord nbits w)) (tableWord nbits w)

end Sys2Proof.Machine
end

