-- ==== Sys2Proof/Machine/Assembler.lean ====
section
/-! DEFINITION. The textual form of event streams (spec 30_encoding.md R86) and the pseudo-instructions with their expansions
(R87). No step of the machine reads text: this file turns a source text into the operations an agent issues. Text is a
list of characters. -/

namespace Sys2Proof.Machine

/-- The assembler constants of 30_encoding.md R87. -/
structure AsmConstants where
  w0 : Nat := 100
  w1 : Nat := 200
  sec : Nat := 1000
  deriving DecidableEq, Repr

/-- One line of source: an operation (30_encoding.md R86) or a pseudo-instruction (R87). -/
inductive AsmLine where
  | nop
  | edge (ts lvl : Nat)
  | take
  | reset
  | lead (t : Nat)
  | trail (t : Nat)
  | pulse (t w : Nat)
  | bit (t b : Nat)
  | frameBits (t f k0 k1 : Nat)
  deriving DecidableEq, Repr

/-- An edge at a computed timestamp, reduced mod 2^N (30_encoding.md R87). -/
def asmEdge (c : Config) (t : Nat) (lvl : Bool) : Instr := .edge (BitVec.ofNat 32 (t % 2 ^ c.tsWidth)) lvl

/-- `LEAD t` (30_encoding.md R87). -/
def asmLead (c : Config) (t : Nat) : List Instr := [asmEdge c t c.pulseActiveLevel]

/-- `TRAIL t` (30_encoding.md R87). -/
def asmTrail (c : Config) (t : Nat) : List Instr := [asmEdge c t (!c.pulseActiveLevel)]

/-- `PULSE t, w` (30_encoding.md R87). -/
def asmPulse (c : Config) (t w : Nat) : List Instr := asmLead c t ++ asmTrail c (t + w)

/-- `BIT t, b` (30_encoding.md R87). -/
def asmBit (c : Config) (k : AsmConstants) (t : Nat) (b : Bool) : List Instr :=
  asmPulse c t (if b then k.w1 else k.w0)

/-- `FRAMEBITS t, f, k0, k1` (30_encoding.md R87): the bits `k0` to `k1` of `f`, one second apart from `t` on. -/
def asmFrameBits (c : Config) (k : AsmConstants) (t : Nat) (f : Frame) (k0 k1 : Nat) : List Instr :=
  (List.range (k1 + 1 - k0)).flatMap fun j => asmBit c k (t + k.sec * j) (f.getLsbD (k0 + j))

/-- The operations of one line; `none` where an operand is outside the range of 30_encoding.md R86 or R87. -/
def asmExpand (c : Config) (k : AsmConstants) : AsmLine → Option (List Instr)
  | .nop => some [.nop]
  | .edge ts lvl =>
    if ts < 2 ^ c.tsWidth ∧ lvl < 2 then some [.edge (BitVec.ofNat 32 ts) (lvl == 1)] else none
  | .take => some [.take]
  | .reset => some [.reset]
  | .lead t => some (asmLead c t)
  | .trail t => some (asmTrail c t)
  | .pulse t w => some (asmPulse c t w)
  | .bit t b => if b < 2 then some (asmBit c k t (b == 1)) else none
  | .frameBits t f k0 k1 =>
    if f < 2 ^ 59 ∧ k1 < 59 then some (asmFrameBits c k t (BitVec.ofNat 59 f) k0 k1) else none

/-- The value of a digit in the given base (10 or 16), if it is one. -/
def digitValue (base : Nat) (d : Char) : Option Nat :=
  let n := d.toNat
  let v :=
    if 48 ≤ n ∧ n ≤ 57 then n - 48
    else if 97 ≤ n ∧ n ≤ 102 then n - 87
    else if 65 ≤ n ∧ n ≤ 70 then n - 55
    else base
  if v < base then some v else none

/-- The digits of a number in the given base, most significant first, added to the value read so far. -/
def readDigits (base : Nat) : Nat → List Char → Option Nat
  | n, [] => some n
  | n, d :: rest =>
    match digitValue base d with
    | some v => readDigits base (base * n + v) rest
    | none => none

/-- A number, decimal or `0x` hexadecimal (30_encoding.md R86). DESIGN CHOICE (assumption log 12): no rule says how a frame
operand written as a name or a formula is read (`F1`, `F2`, `F1^(1<<30)` in the programs of 95_test_vectors.md); such an
operand is no number, so its line is rejected until the frame's value stands in its place. -/
def readNumber : List Char → Option Nat
  | [] => none
  | '0' :: 'x' :: d :: rest => readDigits 16 0 (d :: rest)
  | d :: rest => readDigits 10 0 (d :: rest)

/-- The text before the first `;`, which starts a comment (30_encoding.md R86). -/
def dropComment (line : List Char) : List Char := line.takeWhile (· ≠ ';')

/-- The parts of a text between separators, the empty parts left out. -/
def splitAtChars (isSep : Char → Bool) : List Char → List (List Char)
  | [] => []
  | ch :: rest =>
    if isSep ch then [] :: splitAtChars isSep rest
    else
      match splitAtChars isSep rest with
      | [] => [[ch]]
      | part :: parts => (ch :: part) :: parts

/-- The words of a line: the mnemonic and the operands, which blanks and commas separate. -/
def lineWords (line : List Char) : List (List Char) :=
  (splitAtChars (fun ch => ch == ' ' || ch == '\t' || ch == ',' || ch == '\r') (dropComment line)).filter (! ·.isEmpty)

/-- The operands of a line as numbers. -/
def readNumbers : List (List Char) → Option (List Nat)
  | [] => some []
  | w :: rest =>
    match readNumber w, readNumbers rest with
    | some n, some ns => some (n :: ns)
    | _, _ => none

/-- One line of source with its words read: the mnemonics of 30_encoding.md R86 and R87. -/
def readOperation (mnemonic : String) (operands : List Nat) : Option AsmLine :=
  match operands with
  | [] =>
    if mnemonic = "NOP" then some .nop
    else if mnemonic = "TAKE" then some .take
    else if mnemonic = "RESET" then some .reset
    else none
  | [t] => if mnemonic = "LEAD" then some (.lead t) else if mnemonic = "TRAIL" then some (.trail t) else none
  | [t, x] =>
    if mnemonic = "EDGE" then some (.edge t x)
    else if mnemonic = "PULSE" then some (.pulse t x)
    else if mnemonic = "BIT" then some (.bit t x)
    else none
  | [t, f, k0, k1] => if mnemonic = "FRAMEBITS" then some (.frameBits t f k0 k1) else none
  | _ => none

/-- The operations of one line of text: none of them for an empty line or a comment. -/
def assembleLine (c : Config) (k : AsmConstants) (line : List Char) : Option (List Instr) :=
  match lineWords line with
  | [] => some []
  | m :: ws =>
    match readNumbers ws with
    | none => none
    | some ns => (readOperation (String.ofList m) ns).bind (asmExpand c k)

/-- The operations of several lines, in order; `none` where one of them is not a line of the assembler. -/
def assembleLines (c : Config) (k : AsmConstants) : List (List Char) → Option (List Instr)
  | [] => some []
  | l :: ls =>
    match assembleLine c k l, assembleLines c k ls with
    | some is, some js => some (is ++ js)
    | _, _ => none

/-- The operations of a source text, one operation a line (30_encoding.md R86). -/
def assemble (c : Config) (k : AsmConstants) (text : List Char) : Option (List Instr) :=
  assembleLines c k (splitAtChars (· == '\n') text)

end Sys2Proof.Machine
end

