-- ==== Sys2Proof/Safety.lean ====
section
/-! DEFINITION. The terms in which claims about runs are made: the invariant of the registers (spec 10_state.md R20, R31 and
R35), a sequence of operations performed in one total order (20_memory.md R53), and the events of a run that the laws of
40_edge.md R113 and R114, 42_host_ops.md R174 and 70_reset_and_hazards.md R232 count. -/

namespace Sys2Proof.Machine

/-- The invariant of the registers under a configuration: 10_state.md R31 (but for its history clause), R35, the legal
values of R20, and that `OVERRUN` is never 1 without `FULL` (R37 and R38). -/
structure Regs.Inv (c : Config) (r : Regs) : Prop where
  receiving_edge_valid : r.state = .receivingOne ∨ r.state = .receivingZero → r.lastEdgeValid = true
  receiving_lead_valid : r.state = .receivingOne ∨ r.state = .receivingZero → r.lastLeadValid = true
  receivingOne_lead_is_edge : r.state = .receivingOne → r.lastEdgeTs = r.lastLeadTs
  powerOnDelay_no_lead : r.state = .powerOnDelay → r.lastLeadValid = false
  frame_above_count : ∀ k : Fin 59, r.count.toNat ≤ k → r.frame.getLsbD k = false
  receiving_count : r.state = .receivingOne ∨ r.state = .receivingZero → r.count.toNat ≤ 58
  syncSearch_count : r.state = .syncSearch → r.count.toNat = 0 ∨ r.count.toNat = 59
  powerOnDelay_count : r.state = .powerOnDelay → r.count.toNat = 0 ∧ r.frame = 0
  podRefTs_fits : r.podRefTs.toNat < 2 ^ c.tsWidth
  lastEdgeTs_fits : r.lastEdgeTs.toNat < 2 ^ c.tsWidth
  lastLeadTs_fits : r.lastLeadTs.toNat < 2 ^ c.tsWidth
  minute_legal : r.rMinute.toNat ≤ 85
  hour_legal : r.rHour.toNat ≤ 45
  day_legal : r.rDay.toNat ≤ 45
  month_legal : r.rMonth.toNat ≤ 25
  year_legal : r.rYear.toNat ≤ 165
  overrun_full : r.overrun = true → r.full = true

/-- The invariant of a state: that of its registers under its configuration. -/
def State.Inv (s : State) : Prop := s.regs.Inv s.cfg

/-- The edge at `ts` is accepted: it is the first one, or its width is not below `DEBOUNCE_MIN` (40_edge.md R104). -/
abbrev State.Accepts (s : State) (ts : Ts) : Prop :=
  ¬(s.regs.lastEdgeValid = true ∧ subN s.cfg ts s.regs.lastEdgeTs < s.cfg.debounceMin)

/-- An edge to the level `lvl` is a leading edge (40_edge.md R103). -/
abbrev State.Leading (s : State) (lvl : Bool) : Prop := lvl = s.cfg.pulseActiveLevel

/-- A leading edge at `ts` would be a minute boundary (40_edge.md R107). -/
abbrev State.Boundary (s : State) (ts : Ts) : Prop :=
  s.regs.lastLeadValid = true ∧ s.cfg.syncMin ≤ subN s.cfg ts s.regs.lastLeadTs ∧
    subN s.cfg ts s.regs.lastLeadTs ≤ s.cfg.syncMax

/-- The pulse that a trailing edge at `ts` ends has a width in the short window (40_edge.md R108). -/
abbrev State.ShortPulse (s : State) (ts : Ts) : Prop :=
  s.cfg.shortMin ≤ subN s.cfg ts s.regs.lastEdgeTs ∧ subN s.cfg ts s.regs.lastEdgeTs ≤ s.cfg.shortMax

/-- The pulse that a trailing edge at `ts` ends has a width in the long window (40_edge.md R108). -/
abbrev State.LongPulse (s : State) (ts : Ts) : Prop :=
  s.cfg.longMin ≤ subN s.cfg ts s.regs.lastEdgeTs ∧ subN s.cfg ts s.regs.lastEdgeTs ≤ s.cfg.longMax

/-- A sequence of operations performed in order (20_memory.md R53), whichever agents issued them. -/
def execAll : List Instr → State → Host.Outcome State Fault Refusal
  | [], s => .next s
  | i :: is, s =>
    match exec i s with
    | .next t => execAll is t
    | .fault e => .fault e
    | .refused e => .refused e

/-- The words delivered in the given turns (20_memory.md R53): each agent's words in its own order, and the idle word `NOP`
from an agent that has issued nothing more (00_scope.md R9). Turns and queues are the model's (assumption log 2). -/
def deliveredWords : List Agent → State → List EventWord
  | [], _ => []
  | a :: turns, s =>
    match queueOf s a with
    | [] => encode .nop :: deliveredWords turns s
    | w :: rest => w :: deliveredWords turns (setQueue s a rest)

/-- How many operations of a sequence meet `p` in the state in which they are performed. -/
def countAlong (p : Instr → State → Bool) : List Instr → State → Nat
  | [], _ => 0
  | i :: is, s =>
    (p i s).toNat + match exec i s with
      | .next t => countAlong p is t
      | .fault _ => 0
      | .refused _ => 0

/-- The operation is an edge that the debounce does not ignore (00_scope.md, glossary: accepted edge). -/
def acceptsEdge (i : Instr) (s : State) : Bool :=
  match i with
  | .edge ts _ => !debounced s.cfg ts s.regs
  | .nop | .take | .reset => false

/-- The bit the operation pushes into the frame buffer, if it pushes one (40_edge.md R108). -/
def pushedBit (i : Instr) (s : State) : Option Bool :=
  match i with
  | .edge ts lvl =>
    if acceptsEdge i s && decide (s.regs.state = .receivingOne) && !isLead s.cfg lvl then
      classify s.cfg (pulseWidth s.cfg ts s.regs)
    else none
  | .nop | .take | .reset => none

/-- The operation pushes a bit. -/
def pushesBit (i : Instr) (s : State) : Bool := (pushedBit i s).isSome

/-- The operation pushes the 59th bit and so runs the decode (41_frame_decode.md R141). -/
def completesFrame (i : Instr) (s : State) : Bool := pushesBit i s && decide (s.regs.count.toNat = 58)

/-- The operation commits a frame (41_frame_decode.md R148). -/
def commitsFrame (i : Instr) (s : State) : Bool :=
  match pushedBit i s with
  | some b => decide (s.regs.count.toNat = 58) && (failedCheck s.cfg (setFrameBit s.regs.frame 58 b)).isNone
  | none => false

/-- The operation starts a frame: it is an accepted leading edge at a minute boundary, past the power-on delay
(40_edge.md R107, R110). -/
def startsFrame (i : Instr) (s : State) : Bool :=
  match i with
  | .edge ts lvl =>
    acceptsEdge i s && minuteBoundary s.cfg ts (isLead s.cfg lvl) s.regs &&
      (decide (s.regs.state ≠ .powerOnDelay) || delayPassed s.cfg ts (setPodReference ts s.regs))
  | .nop | .take | .reset => false

/-- The operation is a framing error: it abandons the frame being received (40_edge.md R108 to R110). -/
def framingError (i : Instr) (s : State) : Bool :=
  match i with
  | .edge ts lvl =>
    acceptsEdge i s &&
      match s.regs.state with
      | .receivingOne => isLead s.cfg lvl || (classify s.cfg (pulseWidth s.cfg ts s.regs)).isNone
      | .receivingZero => !isLead s.cfg lvl || decide (s.cfg.syncMin ≤ interval s.cfg ts s.regs)
      | .powerOnDelay => false
      | .syncSearch => false
  | .nop | .take | .reset => false

/-- The operation is a `TAKE` whose response has `FULL = 1` (42_host_ops.md R174). -/
def takesFull (i : Instr) (s : State) : Bool :=
  match i with
  | .take => s.regs.full
  | .nop | .reset => false
  | .edge _ _ => false

/-- The level of the last accepted edge after a sequence of operations, starting from `last` (the history that 10_state.md
R31 speaks of and no register holds). -/
def lastAccepted (last : Option Bool) : List Instr → State → Option Bool
  | [], _ => last
  | i :: is, s =>
    let here := match i with
      | .edge ts lvl => if acceptsEdge (.edge ts lvl) s then some lvl else last
      | .nop | .take | .reset => last
    match exec i s with
    | .next t => lastAccepted here is t
    | .fault _ => here
    | .refused _ => here

/-- Consecutive accepted edges of a sequence of operations have different levels, the first one differing from `last`. DESIGN
CHOICE (assumption log 13): 70_reset_and_hazards.md R232 does not say whether the edges that alternate are the delivered ones,
as in R242, or the accepted ones that it counts; here they are the accepted ones. -/
def alternates (last : Option Bool) : List Instr → State → Bool
  | [], _ => true
  | i :: is, s =>
    (!acceptsEdge i s || decide (lastAccepted last [i] s ≠ last)) &&
      match exec i s with
      | .next t => alternates (lastAccepted last [i] s) is t
      | .fault _ => true
      | .refused _ => true

/-- The numeric value of a bit of the frame. -/
def bitValue (f : Frame) (k : Nat) : Nat := (f.getLsbD k).toNat

/-- How many of the bits `lo` to `hi` of the frame are one. -/
def onesIn (f : Frame) (lo hi : Nat) : Nat := ((List.range (hi + 1 - lo)).filter fun k => f.getLsbD (lo + k)).length

/-- The minute that the frame's bits give by the weights of 30_encoding.md R82. -/
def weightedMinute (f : Frame) : Nat :=
  bitValue f 21 + 2 * bitValue f 22 + 4 * bitValue f 23 + 8 * bitValue f 24 +
    10 * bitValue f 25 + 20 * bitValue f 26 + 40 * bitValue f 27

/-- The hour by the weights of 30_encoding.md R82. -/
def weightedHour (f : Frame) : Nat :=
  bitValue f 29 + 2 * bitValue f 30 + 4 * bitValue f 31 + 8 * bitValue f 32 + 10 * bitValue f 33 + 20 * bitValue f 34

/-- The day of the month by the weights of 30_encoding.md R82. -/
def weightedDay (f : Frame) : Nat :=
  bitValue f 36 + 2 * bitValue f 37 + 4 * bitValue f 38 + 8 * bitValue f 39 + 10 * bitValue f 40 + 20 * bitValue f 41

/-- The day of the week by the weights of 30_encoding.md R82. -/
def weightedDow (f : Frame) : Nat := bitValue f 42 + 2 * bitValue f 43 + 4 * bitValue f 44

/-- The month by the weights of 30_encoding.md R82. -/
def weightedMonth (f : Frame) : Nat :=
  bitValue f 45 + 2 * bitValue f 46 + 4 * bitValue f 47 + 8 * bitValue f 48 + 10 * bitValue f 49

/-- The year within the century by the weights of 30_encoding.md R82. -/
def weightedYear (f : Frame) : Nat :=
  bitValue f 50 + 2 * bitValue f 51 + 4 * bitValue f 52 + 8 * bitValue f 53 +
    10 * bitValue f 54 + 20 * bitValue f 55 + 40 * bitValue f 56 + 80 * bitValue f 57

/-- The six result registers hold what the frame's bits give. -/
def Regs.HoldsResultOf (r : Regs) (f : Frame) : Prop :=
  r.rMinute.toNat = weightedMinute f ∧ r.rHour.toNat = weightedHour f ∧ r.rDay.toNat = weightedDay f ∧
  r.rDow.toNat = weightedDow f ∧ r.rMonth.toNat = weightedMonth f ∧ r.rYear.toNat = weightedYear f

/-- The six result registers of two states are equal. -/
def Regs.SameResult (r q : Regs) : Prop :=
  r.rMinute = q.rMinute ∧ r.rHour = q.rHour ∧ r.rDay = q.rDay ∧ r.rDow = q.rDow ∧ r.rMonth = q.rMonth ∧
  r.rYear = q.rYear

/-- What an agent can observe of the registers (10_state.md R41): the result register, `FULL`, `OVERRUN` and
`LAST_OUTCOME`. -/
def Regs.SameObservable (r q : Regs) : Prop :=
  r.SameResult q ∧ r.full = q.full ∧ r.overrun = q.overrun ∧ r.lastOutcome = q.lastOutcome

/-- Two states differ at most in the frame bits 1 to 19 (41_frame_decode.md R151). -/
def SameButUnreadBits (s t : State) : Prop :=
  t = { s with regs := { s.regs with frame := t.regs.frame } } ∧
  ∀ k, k = 0 ∨ 20 ≤ k → s.regs.frame.getLsbD k = t.regs.frame.getLsbD k

/-- Two states differ at most in what no rule reads: `POD_REF_*` outside `PowerOnDelay` (10_state.md R28), `FRAME` and
`COUNT` outside reception (93_implementation_defined.md I17), and a timestamp whose valid bit is 0 (10_state.md R44). -/
structure SameButHidden (s t : State) : Prop where
  rest : t = { s with regs := t.regs }
  state : s.regs.state = t.regs.state
  podRefValid : s.regs.state = .powerOnDelay → s.regs.podRefValid = t.regs.podRefValid
  podRefTs : s.regs.state = .powerOnDelay → s.regs.podRefValid = true → s.regs.podRefTs = t.regs.podRefTs
  lastEdgeValid : s.regs.lastEdgeValid = t.regs.lastEdgeValid
  lastEdgeTs : s.regs.lastEdgeValid = true → s.regs.lastEdgeTs = t.regs.lastEdgeTs
  lastLeadValid : s.regs.lastLeadValid = t.regs.lastLeadValid
  lastLeadTs : s.regs.lastLeadValid = true → s.regs.lastLeadTs = t.regs.lastLeadTs
  frame : s.regs.state = .receivingOne ∨ s.regs.state = .receivingZero → s.regs.frame = t.regs.frame
  count : s.regs.state = .receivingOne ∨ s.regs.state = .receivingZero → s.regs.count = t.regs.count
  observable : s.regs.SameObservable t.regs

end Sys2Proof.Machine
end

