-- ==== Sys2Proof/Certificates/Slice0/Obligations.lean ====
section
/-! DEFINITION. The statements for the provers. Each docstring names the rules of spec/ that the statement formalises. -/

open Sys2Proof Sys2Proof.Machine

/-! ### Event words -/

/-- 30_encoding.md R70, R72 and R75: every operation a configuration admits, with every operand at every value, is read
back from its word. -/
def Obligations.DecodeReadsEncodedWord : Prop :=
  ∀ (c : Config) (i : Instr), i.WellFormed c → decode c (encode i) = .ok i

/-- 30_encoding.md R70 and R77: the other direction; a word that decodes is the word of its operation, so no two
operations share a word and no word has two spellings. -/
def Obligations.DecodedWordIsTheEncoding : Prop :=
  ∀ (c : Config) (w : EventWord) (i : Instr), decode c w = .ok i → encode i = w ∧ i.WellFormed c

/-- 30_encoding.md R76, with R72, R74 and R75: the legal words are exactly those with no reserved bit set, no timestamp
bit at position N or above, and no operand bit in a word that is no `EDGE`. -/
def Obligations.LegalWordsAreExactlyThese : Prop :=
  ∀ (c : Config) (w : EventWord),
    (∃ i, decode c w = .ok i) ↔
      (∀ k, 3 ≤ k → k ≤ 7 → w.getLsbD k = false) ∧
      (w.toNat % 4 = 1 → ∀ k, 8 + c.tsWidth ≤ k → k ≤ 39 → w.getLsbD k = false) ∧
      (w.toNat % 4 ≠ 1 → ∀ k, 2 ≤ k → k ≤ 39 → w.getLsbD k = false)

/-- 30_encoding.md R75: each of the three operations without operands has exactly one legal word. -/
def Obligations.OperandlessWordsAreUnique : Prop :=
  ∀ (c : Config) (w : EventWord),
    (decode c w = .ok .nop ↔ w = 0x0000000000#40) ∧
    (decode c w = .ok .take ↔ w = 0x0000000002#40) ∧
    (decode c w = .ok .reset ↔ w = 0x0000000003#40)

/-- 30_encoding.md R72: the operands of `EDGE`. -/
def Obligations.EdgeOperandsComeFromTheirFields : Prop :=
  ∀ (c : Config) (w : EventWord) (ts : Ts) (lvl : Bool), decode c w = .ok (.edge ts lvl) →
    ts.toNat = w.toNat / 2 ^ 8 % 2 ^ c.tsWidth ∧ lvl = w.getLsbD 2 ∧
    ∀ k, 8 + c.tsWidth ≤ k → k ≤ 39 → w.getLsbD k = false

/-- Words written out from 30_encoding.md R70 and read as R71 says; the fifth has its timestamp too wide for N = 16. -/
def Obligations.WrittenOutWordsDecode : Prop :=
  decode Config.ex1 0x0000000000#40 = .ok .nop ∧
  decode Config.ex1 0x0000277405#40 = .ok (.edge 10100#32 true) ∧
  decode Config.ex1 0x0000000002#40 = .ok .take ∧
  decode Config.ex1 0x0000000003#40 = .ok .reset ∧
  decode Config.ex1 0xFFFFFFFF05#40 = .error .timestampWiderThanN ∧
  decode { Config.ex1 with tsWidth := 32 } 0xFFFFFFFF05#40 = .ok (.edge 4294967295#32 true) ∧
  decode Config.ex1 0x0000000009#40 = .error .reservedBitsNonzero ∧
  decode Config.ex1 0x0000000006#40 = .error .operandBitsNonzero

/-! ### The step and the agents -/

/-- The model's step around an operation (assumption log 2): when the scheduled agent's next word decodes, `step` is `exec`
of it at the state in which that word and that turn are used up and the agent is the issuer. -/
def Obligations.StepRunsTheDecodedOperation : Prop :=
  ∀ (s : State) (a : Agent) (turns : List Agent) (w : EventWord) (rest : List EventWord) (i : Instr),
    s.cfg.WellFormed → s.schedule = a :: turns → queueOf s a = w :: rest → decode s.cfg w = .ok i →
    step s = exec i { setQueue s a rest with schedule := turns, issuer := a }

/-- 30_encoding.md R76: an illegal word is refused with its reason, and the refusal stands for the rest of the run (the model
keeps the mark as the outcome, assumption log 4). -/
def Obligations.IllegalWordEndsTheRun : Prop :=
  ∀ (s : State) (a : Agent) (turns : List Agent) (w : EventWord) (rest : List EventWord) (why : IllegalWord) (k : Nat),
    s.cfg.WellFormed → s.schedule = a :: turns → queueOf s a = w :: rest → decode s.cfg w = .error why →
    Sys2Proof.core.run (k + 1) s = .refused (.illegalWord why)

/-- 00_scope.md R7: the model refuses exactly the configurations that are not well-formed. -/
def Obligations.ExactlyIllFormedConfigurationsRefused : Prop :=
  ∀ s : State,
    step s = .refused .illFormedConfiguration ↔
      ¬(1 ≤ s.cfg.tsWidth ∧ s.cfg.tsWidth ≤ 32 ∧
        s.cfg.debounceMin ≤ s.cfg.shortMin ∧ s.cfg.shortMin ≤ s.cfg.shortMax ∧
        s.cfg.shortMax < s.cfg.longMin ∧ s.cfg.longMin ≤ s.cfg.longMax ∧
        s.cfg.longMax < s.cfg.syncMin ∧ s.cfg.syncMin ≤ s.cfg.syncMax ∧ s.cfg.syncMax ≤ 2 ^ s.cfg.tsWidth - 1 ∧
        s.cfg.powerOnDelay ≤ 2 ^ s.cfg.tsWidth - 1)

/-- 40_edge.md R115 and 00_scope.md R9: with no turn left, or no word of the agent whose turn it is, no register and no
response changes (turns and queues are the model's, assumption log 2). -/
def Obligations.NothingToDeliverChangesNothing : Prop :=
  ∀ s : State, s.cfg.WellFormed →
    (s.schedule = [] → step s = .next s) ∧
    ∀ a turns, s.schedule = a :: turns → queueOf s a = [] →
      ∃ t, step s = .next t ∧ t.regs = s.regs ∧ t.responses = s.responses ∧ t.schedule = turns

/-- 20_memory.md R53, on the model's queues and schedule (assumption log 2): a run of k steps that answers performs the words of
the first k turns, each agent's in the order in which it issued them, as one sequence of operations. The registers and the
response words are those of that sequence, and each response goes to the agent whose turn the `TAKE` was. -/
def Obligations.AgentsAreServedInTheirOwnOrder : Prop :=
  ∀ (k : Nat) (s t : State), Sys2Proof.core.run k s = .next t →
    t.schedule = s.schedule.drop k ∧
    (∀ a, queueOf t a = (queueOf s a).drop ((s.schedule.take k).count a)) ∧
    ∃ is u, (deliveredWords (s.schedule.take k) s).map (decode s.cfg) = is.map .ok ∧ execAll is s = .next u ∧
      t.regs = u.regs ∧ t.responses.map Response.word = u.responses.map Response.word ∧
      t.responses.map Response.agent =
        s.responses.map Response.agent ++ (((s.schedule.take k).zip is).filter (·.2 = .take)).map (·.1)

/-- What no operation writes: the configuration (10_state.md R43) and, of the model's own state (assumption log 2), the agents'
words, the schedule and the issuer. Only `TAKE` responds (30_encoding.md R79), with one word, to the issuer. -/
def Obligations.OperationsLeaveAgentsAndConfiguration : Prop :=
  ∀ (i : Instr) (s t : State), exec i s = .next t →
    t.cfg = s.cfg ∧ t.schedule = s.schedule ∧ t.issuer = s.issuer ∧ (∀ a, queueOf t a = queueOf s a) ∧
    (i ≠ .take → t.responses = s.responses) ∧
    (i = .take → ∃ w, t.responses = s.responses ++ [⟨s.issuer, w⟩])

/-! ### Reset, NOP, TAKE and RESET -/

/-- 10_state.md R44, 42_host_ops.md R175 and R176: after power-on reset and after `RESET`, which completes from every state,
every register holds its reset value (the spec's own choice but for `STATE`, decision D26), and `RESET` does nothing else. -/
def Obligations.ResetLeavesResetValues : Prop :=
  let values : Regs :=
    { state := .powerOnDelay, podRefTs := 0, podRefValid := false, lastEdgeTs := 0, lastEdgeValid := false,
      lastLeadTs := 0, lastLeadValid := false, frame := 0, count := 0, rMinute := 0, rHour := 0, rDay := 0, rDow := 0,
      rMonth := 0, rYear := 0, full := false, overrun := false, lastOutcome := .none }
  State.reset.regs = values ∧ encode .reset = 0x0000000003#40 ∧
    ∀ s : State, exec .reset s = .next { s with regs := values }

/-- The codes of 10_state.md R23 and 30_encoding.md R80. -/
def Obligations.StateAndOutcomeCodes : Prop :=
  (DecoderState.code .powerOnDelay = 0 ∧ DecoderState.code .syncSearch = 1 ∧ DecoderState.code .receivingOne = 2 ∧
    DecoderState.code .receivingZero = 3) ∧
  (FrameOutcome.code .none = 0 ∧ FrameOutcome.code .committed = 1 ∧ FrameOutcome.code .shortFrame = 2 ∧
    FrameOutcome.code .markerFail = 3 ∧ FrameOutcome.code .parityMinuteFail = 4 ∧
    FrameOutcome.code .parityHourFail = 5 ∧ FrameOutcome.code .parityDateFail = 6 ∧ FrameOutcome.code .widthFail = 7 ∧
    FrameOutcome.code .levelFail = 8 ∧ FrameOutcome.code .gapFail = 9 ∧ FrameOutcome.code .rangeFail = 10)

/-- 42_host_ops.md R170: `NOP` completes from every state and leaves it, and only the word of zeros is a `NOP`. -/
def Obligations.NopLeavesTheState : Prop :=
  (∀ s : State, exec .nop s = .next s) ∧ encode .nop = 0x0000000000#40 ∧
    ∀ (c : Config) (w : EventWord), decode c w = .ok .nop → w = 0x0000000000#40

/-- 42_host_ops.md R171: operations with their `NOP`s removed, and so also with `NOP`s inserted anywhere, end alike. -/
def Obligations.NopsMayBeRemoved : Prop :=
  ∀ (is : List Instr) (s : State), execAll is s = execAll (is.filter (· ≠ .nop)) s

/-- 42_host_ops.md R172, 30_encoding.md R78: `TAKE` completes from every state, clears `FULL` and `OVERRUN`, changes no other
register, and returns to its issuer one word with the fields as they were before, every other bit 0. -/
def Obligations.TakeReturnsTheFieldsAndClears : Prop :=
  encode .take = 0x0000000002#40 ∧ ∀ s : State, ∃ w : ResponseWord,
    exec .take s =
      .next { s with regs := { s.regs with full := false, overrun := false }, responses := s.responses ++ [⟨s.issuer, w⟩] } ∧
    w.getLsbD 0 = s.regs.full ∧ w.getLsbD 1 = s.regs.overrun ∧ w.extractLsb 3 2 = 0 ∧
    w.extractLsb 7 4 = s.regs.lastOutcome.code ∧ w.extractLsb 14 8 = s.regs.rMinute ∧ w.getLsbD 15 = false ∧
    w.extractLsb 21 16 = s.regs.rHour ∧ w.extractLsb 23 22 = 0 ∧ w.extractLsb 29 24 = s.regs.rDay ∧
    w.extractLsb 31 30 = 0 ∧ w.extractLsb 34 32 = s.regs.rDow ∧ w.extractLsb 39 35 = 0 ∧
    w.extractLsb 44 40 = s.regs.rMonth ∧ w.extractLsb 47 45 = 0 ∧ w.extractLsb 55 48 = s.regs.rYear ∧
    w.extractLsb 63 56 = 0

/-- 10_state.md R41: what a `TAKE` returns, and the output `frame_ready`, depend on nothing but the result register, `FULL`,
`OVERRUN` and `LAST_OUTCOME`; and the response tells those apart. -/
def Obligations.ResponseShowsExactlyTheObservable : Prop :=
  ∀ r q : Regs, responseWord r = responseWord q ↔ r.SameObservable q

/-- 42_host_ops.md R174, first law, for two `TAKE`s with no commit between them. The model reads "the same fields" as said
between the two when no `RESET` came between, and "the same outcome" when no frame event (40_edge.md R110, 41_frame_decode.md
R147) came between either (assumption log 9). -/
def Obligations.SecondTakeFindsNothing : Prop :=
  ∀ (is : List Instr) (s u v : State), exec .take s = .next u → execAll is u = .next v →
    countAlong commitsFrame is u = 0 →
    v.regs.full = false ∧ v.regs.overrun = false ∧
    (.reset ∉ is → v.regs.SameResult u.regs) ∧
    (.reset ∉ is → countAlong framingError is u = 0 → countAlong completesFrame is u = 0 →
      v.regs.lastOutcome = u.regs.lastOutcome)

/-- 42_host_ops.md R174, second law: the responses with `FULL = 1` never outnumber the commits. -/
def Obligations.FullResponsesNeverOutnumberCommits : Prop :=
  ∀ (is : List Instr) (s t : State), s.regs.full = false → execAll is s = .next t →
    countAlong takesFull is s ≤ countAlong commitsFrame is s

/-- 10_state.md R37 and R38, 41_frame_decode.md R148, and with them the third law of 42_host_ops.md R174: from a state with
nothing to take, and until the next `TAKE` or `RESET`, `FULL` says that a commit has happened and `OVERRUN` that two
have. -/
def Obligations.FullAndOverrunCountTheCommits : Prop :=
  ∀ (is : List Instr) (s t : State), s.regs.full = false → s.regs.overrun = false → .take ∉ is → .reset ∉ is →
    execAll is s = .next t →
    (t.regs.full = true ↔ 1 ≤ countAlong commitsFrame is s) ∧
    (t.regs.overrun = true ↔ 2 ≤ countAlong commitsFrame is s)

/-- 60_exceptions.md R206: `frame_ready` is `FULL`; a commit raises it, `TAKE` lowers it, a `RESET` too (R230), and nothing
else changes it. -/
def Obligations.FrameReadyFollowsCommitAndTake : Prop :=
  ∀ (i : Instr) (s t : State), exec i s = .next t →
    frameReady t = if i = .take ∨ i = .reset then false else if commitsFrame i s then true else frameReady s

/-- 20_memory.md R54: after a commit every later `TAKE` finds `FULL = 1`, until a `TAKE` (or a `RESET`) clears it; the fields
are those of the commit, as long as no later commit replaces them. -/
def Obligations.CommittedResultStaysUntilTaken : Prop :=
  ∀ (i : Instr) (is : List Instr) (s t u : State), commitsFrame i s = true → exec i s = .next t →
    .take ∉ is → .reset ∉ is → execAll is t = .next u →
    u.regs.full = true ∧ (countAlong commitsFrame is t = 0 → u.regs.SameResult t.regs)

/-- 60_exceptions.md R203: a committing `EDGE` and a `TAKE` in either order. A `TAKE` ordered before returns the old word and
leaves the new result to be taken; one ordered after returns the new result's word and leaves nothing. -/
def Obligations.TakeBeforeOrAfterTheCommit : Prop :=
  ∀ (ts : Ts) (lvl : Bool) (s t : State), commitsFrame (.edge ts lvl) s = true → exec (.edge ts lvl) s = .next t →
    (∃ u, execAll [.take, .edge ts lvl] s = .next u ∧ u.responses = s.responses ++ [⟨s.issuer, responseWord s.regs⟩] ∧
      u.regs.full = true ∧ u.regs.overrun = false ∧ u.regs.SameResult t.regs) ∧
    (∃ v, execAll [.edge ts lvl, .take] s = .next v ∧ v.responses = s.responses ++ [⟨s.issuer, responseWord t.regs⟩] ∧
      v.regs.full = false ∧ v.regs.SameResult t.regs)

/-! ### Timestamps -/

/-- 00_scope.md R12: `sub_N` is the difference of the integers modulo 2^N, between 0 and 2^N - 1. -/
def Obligations.SubNIsTheModularDifference : Prop :=
  ∀ (c : Config) (a b : Ts), c.tsWidth ≤ 32 →
    ((subN c a b : Nat) : Int) = ((a.toNat : Int) - (b.toNat : Int)) % (2 ^ c.tsWidth : Int) ∧
      subN c a b ≤ 2 ^ c.tsWidth - 1

/-- 70_reset_and_hazards.md R240: for readings of a counter that never goes backwards, less than 2^N ticks apart, `sub_N` is
the true elapsed time. -/
def Obligations.ElapsedTimeBelowTheWrapIsExact : Prop :=
  ∀ (c : Config) (earlier later : Nat), c.tsWidth ≤ 32 → earlier ≤ later → later - earlier < 2 ^ c.tsWidth →
    subN c (BitVec.ofNat 32 (later % 2 ^ c.tsWidth)) (BitVec.ofNat 32 (earlier % 2 ^ c.tsWidth)) = later - earlier

/-! ### EDGE, state by state -/

/-- 40_edge.md R104: in every state an edge below the debounce floor changes nothing; any other edge, the first after reset
and one exactly at the floor included, is accepted and becomes the last edge. -/
def Obligations.DebounceIgnoresExactlyTheNarrowEdges : Prop :=
  ∀ (s : State) (ts : Ts) (lvl : Bool), s.Inv →
    (s.regs.lastEdgeValid = true → subN s.cfg ts s.regs.lastEdgeTs < s.cfg.debounceMin →
      exec (.edge ts lvl) s = .next s) ∧
    (s.regs.lastEdgeValid = false ∨ s.cfg.debounceMin ≤ subN s.cfg ts s.regs.lastEdgeTs →
      ∃ t, exec (.edge ts lvl) s = .next t ∧ t.regs.lastEdgeTs = ts ∧ t.regs.lastEdgeValid = true)

/-- 40_edge.md R111: every accepted edge is recorded, and a leading edge also as the last leading edge, unless the state after
its rule is `PowerOnDelay`. -/
def Obligations.AcceptedEdgesAreRecorded : Prop :=
  ∀ (s : State) (ts : Ts) (lvl : Bool), s.Inv → s.Accepts ts →
    ∃ t, exec (.edge ts lvl) s = .next t ∧ t.regs.lastEdgeTs = ts ∧ t.regs.lastEdgeValid = true ∧
      if s.Leading lvl ∧ t.regs.state ≠ .powerOnDelay then
        t.regs.lastLeadTs = ts ∧ t.regs.lastLeadValid = true
      else
        t.regs.lastLeadTs = s.regs.lastLeadTs ∧ t.regs.lastLeadValid = s.regs.lastLeadValid

/-- 40_edge.md R106: an accepted edge in `PowerOnDelay`, where no leading edge is recorded (10_state.md R31). -/
def Obligations.PowerOnDelayEdge : Prop :=
  ∀ (s : State) (ts : Ts) (lvl : Bool),
    s.regs.state = .powerOnDelay → s.regs.lastLeadValid = false → s.Accepts ts →
    let ref := if s.regs.podRefValid then s.regs.podRefTs else ts
    let seen := { s.regs with podRefTs := ref, podRefValid := true, lastEdgeTs := ts, lastEdgeValid := true }
    exec (.edge ts lvl) s =
      .next { s with regs := (
        if s.cfg.powerOnDelay ≤ subN s.cfg ts ref then
          if s.Leading lvl then { seen with state := .syncSearch, lastLeadTs := ts, lastLeadValid := true }
          else { seen with state := .syncSearch }
        else seen) }

/-- 40_edge.md R107: an accepted edge in `SyncSearch`. -/
def Obligations.SyncSearchEdge : Prop :=
  ∀ (s : State) (ts : Ts) (lvl : Bool), s.regs.state = .syncSearch → s.Accepts ts →
    exec (.edge ts lvl) s =
      .next { s with regs := (
        if s.Leading lvl then
          if s.Boundary ts then
            { s.regs with
              frame := 0, count := 0, state := .receivingOne,
              lastEdgeTs := ts, lastEdgeValid := true, lastLeadTs := ts, lastLeadValid := true }
          else
            { s.regs with lastEdgeTs := ts, lastEdgeValid := true, lastLeadTs := ts, lastLeadValid := true }
        else { s.regs with lastEdgeTs := ts, lastEdgeValid := true }) }

/-- 40_edge.md R108: an accepted edge in `ReceivingOne`: a leading edge is a missed trailing edge; a trailing edge is classified
by the width of its pulse and pushed, and the 59th bit is followed by the decode. `COUNT` is at most 58 there
(10_state.md R35). -/
def Obligations.ReceivingOneEdge : Prop :=
  ∀ (s : State) (ts : Ts) (lvl : Bool), s.cfg.WellFormed → s.regs.state = .receivingOne → s.regs.count.toNat ≤ 58 →
    s.Accepts ts →
    exec (.edge ts lvl) s =
      .next { s with regs := (
        if s.Leading lvl then
          { s.regs with
            frame := 0, count := 0, lastOutcome := .levelFail,
            state := if s.Boundary ts then .receivingOne else .syncSearch,
            lastEdgeTs := ts, lastEdgeValid := true, lastLeadTs := ts, lastLeadValid := true }
        else if s.ShortPulse ts ∨ s.LongPulse ts then
          let pushed :=
            { s.regs with
              frame := setFrameBit s.regs.frame s.regs.count.toNat (decide (s.LongPulse ts)), count := s.regs.count + 1 }
          if s.regs.count = 58 then
            { decodeAndCommit s.cfg pushed with state := .syncSearch, lastEdgeTs := ts, lastEdgeValid := true }
          else { pushed with state := .receivingZero, lastEdgeTs := ts, lastEdgeValid := true }
        else
          { s.regs with
            frame := 0, count := 0, lastOutcome := .widthFail, state := .syncSearch,
            lastEdgeTs := ts, lastEdgeValid := true }) }

/-- 40_edge.md R109: an accepted edge in `ReceivingZero`, where a leading edge has been recorded (10_state.md R31). -/
def Obligations.ReceivingZeroEdge : Prop :=
  ∀ (s : State) (ts : Ts) (lvl : Bool), s.regs.state = .receivingZero → s.regs.lastLeadValid = true → s.Accepts ts →
    let i := subN s.cfg ts s.regs.lastLeadTs
    let lead := { s.regs with lastEdgeTs := ts, lastEdgeValid := true, lastLeadTs := ts, lastLeadValid := true }
    exec (.edge ts lvl) s =
      .next { s with regs := (
        if s.Leading lvl then
          if i < s.cfg.syncMin then { lead with state := .receivingOne }
          else if i ≤ s.cfg.syncMax then
            { lead with frame := 0, count := 0, lastOutcome := .shortFrame, state := .receivingOne }
          else { lead with frame := 0, count := 0, lastOutcome := .gapFail, state := .syncSearch }
        else
          { s.regs with
            frame := 0, count := 0, lastOutcome := .levelFail, state := .syncSearch,
            lastEdgeTs := ts, lastEdgeValid := true }) }

/-- 40_edge.md R110: every framing error discards the frame, records its code, and ends in `SyncSearch`, or, when its edge is
itself a minute boundary, in `ReceivingOne`; the result register, `FULL` and `OVERRUN` stay. -/
def Obligations.FramingErrorsDiscardAndResync : Prop :=
  ∀ (ts : Ts) (lvl : Bool) (s : State), framingError (.edge ts lvl) s = true →
    ∃ t, exec (.edge ts lvl) s = .next t ∧ t.regs.frame = 0 ∧ t.regs.count = 0 ∧
      t.regs.lastOutcome =
        (if s.regs.state = .receivingOne then if s.Leading lvl then .levelFail else .widthFail
        else if ¬s.Leading lvl then .levelFail
        else if subN s.cfg ts s.regs.lastLeadTs ≤ s.cfg.syncMax then .shortFrame else .gapFail) ∧
      t.regs.state = (if s.Leading lvl ∧ s.Boundary ts then .receivingOne else .syncSearch) ∧
      t.regs.SameResult s.regs ∧ t.regs.full = s.regs.full ∧ t.regs.overrun = s.regs.overrun

/-- 10_state.md R34: the bit accepted with `COUNT = k` is stored in `FRAME[k]`, no other bit of the frame changes, and
`COUNT` goes up by one. -/
def Obligations.AcceptedBitIsStoredAtCount : Prop :=
  ∀ (i : Instr) (s : State) (b : Bool), s.Inv → pushedBit i s = some b →
    ∃ t, exec i s = .next t ∧ t.regs.count.toNat = s.regs.count.toNat + 1 ∧
      ∀ k, k < 59 → t.regs.frame.getLsbD k = if k = s.regs.count.toNat then b else s.regs.frame.getLsbD k

/-- 10_state.md R28: the power-on reference is written only in `PowerOnDelay`, by the first accepted edge after reset. -/
def Obligations.PowerOnReferenceWrittenOnce : Prop :=
  ∀ (i : Instr) (s t : State), exec i s = .next t → i ≠ .reset →
    if s.regs.state = .powerOnDelay ∧ s.regs.podRefValid = false ∧ acceptsEdge i s = true then
      t.regs.podRefValid = true ∧ ∃ lvl, i = .edge t.regs.podRefTs lvl
    else t.regs.podRefTs = s.regs.podRefTs ∧ t.regs.podRefValid = s.regs.podRefValid

/-- 10_state.md R31, third clause: when a run that starts outside `ReceivingZero` ends in it, the last accepted edge was a
trailing edge. -/
def Obligations.ReceivingZeroFollowsATrailingEdge : Prop :=
  ∀ (is : List Instr) (s t : State), s.regs.state ≠ .receivingZero → execAll is s = .next t →
    t.regs.state = .receivingZero → lastAccepted none is s = some (!s.cfg.pulseActiveLevel)

/-- 40_edge.md R116: after a decode, the pulse of second 59 of a leap-second minute changes no outcome and no result, and the
leading edge about two seconds later starts the next frame. -/
def Obligations.LeapSecondPulseIsPassedOver : Prop :=
  ∀ (s : State) (lead1 trail lead2 : Ts) (on : Bool), s.cfg.WellFormed → s.regs.state = .syncSearch → s.Leading on →
    s.Accepts lead1 → subN s.cfg lead1 s.regs.lastLeadTs < s.cfg.syncMin →
    s.cfg.debounceMin ≤ subN s.cfg trail lead1 → s.cfg.debounceMin ≤ subN s.cfg lead2 trail →
    s.cfg.syncMin ≤ subN s.cfg lead2 lead1 → subN s.cfg lead2 lead1 ≤ s.cfg.syncMax →
    ∃ t, execAll [.edge lead1 on, .edge trail (!on), .edge lead2 on] s = .next t ∧
      t.regs.state = .receivingOne ∧ t.regs.count = 0 ∧ t.regs.frame = 0 ∧ t.regs.SameObservable s.regs

/-- 40_edge.md R115: without edges and resets, no register but `FULL` and `OVERRUN` changes, and these only by `TAKE`. -/
def Obligations.SilenceChangesNothing : Prop :=
  ∀ (is : List Instr) (s : State), (∀ i ∈ is, i = .nop ∨ i = .take) →
    ∃ t, execAll is s = .next t ∧
      t.regs = if .take ∈ is then { s.regs with full := false, overrun := false } else s.regs

/-! ### The completed frame -/

/-- 41_frame_decode.md R142 to R144: the outcome of the 59th bit, by the first check that fails: the markers, then the number
of one bits of the minute, the hour and the date group, then, with `RANGE_CHECK`, the range. -/
def Obligations.FirstFailedCheckIsReported : Prop :=
  ∀ (i : Instr) (s : State) (b : Bool), s.regs.count = 58 → pushedBit i s = some b →
    let f := setFrameBit s.regs.frame 58 b
    ∃ t, exec i s = .next t ∧
      t.regs.lastOutcome =
        if f.getLsbD 0 = true ∨ f.getLsbD 20 = false then .markerFail
        else if onesIn f 21 28 % 2 = 1 then .parityMinuteFail
        else if onesIn f 29 35 % 2 = 1 then .parityHourFail
        else if onesIn f 36 58 % 2 = 1 then .parityDateFail
        else if s.cfg.rangeCheck = true ∧ inRange f = false then .rangeFail
        else .committed

/-- 41_frame_decode.md R146: the range check. -/
def Obligations.RangeCheckBounds : Prop :=
  ∀ f : Frame,
    inRange f = true ↔
      (∀ lo ∈ [21, 29, 36, 45, 50, 54],
        bitValue f lo + 2 * bitValue f (lo + 1) + 4 * bitValue f (lo + 2) + 8 * bitValue f (lo + 3) ≤ 9) ∧
      weightedMinute f ≤ 59 ∧ weightedHour f ≤ 23 ∧ 1 ≤ weightedDay f ∧ weightedDay f ≤ 31 ∧
      1 ≤ weightedDow f ∧ weightedDow f ≤ 7 ∧ 1 ≤ weightedMonth f ∧ weightedMonth f ≤ 12

/-- 41_frame_decode.md R148 and R145: a frame that passes every check is committed, the newest result winning: the result
register holds the fields that the frame's bits give by their weights, none of them truncated. -/
def Obligations.CommitWritesTheWeightedFields : Prop :=
  ∀ (i : Instr) (s : State) (b : Bool), s.regs.count = 58 → pushedBit i s = some b →
    failedCheck s.cfg (setFrameBit s.regs.frame 58 b) = none →
    ∃ t, exec i s = .next t ∧ t.regs.HoldsResultOf (setFrameBit s.regs.frame 58 b) ∧ t.regs.full = true ∧
      t.regs.overrun = (s.regs.overrun || s.regs.full) ∧ t.regs.lastOutcome = .committed ∧ t.regs.state = .syncSearch

/-- 41_frame_decode.md R147: a frame that fails a check is discarded, and its bits and `COUNT = 59` stay until the next frame
start (or a `RESET`). -/
def Obligations.RejectedFrameIsDiscarded : Prop :=
  ∀ (i : Instr) (s : State) (b : Bool) (code : FrameOutcome), s.regs.count = 58 → pushedBit i s = some b →
    failedCheck s.cfg (setFrameBit s.regs.frame 58 b) = some code →
    ∃ t, exec i s = .next t ∧ t.regs.lastOutcome = code ∧ t.regs.SameResult s.regs ∧ t.regs.full = s.regs.full ∧
      t.regs.overrun = s.regs.overrun ∧ t.regs.state = .syncSearch ∧
      t.regs.frame = setFrameBit s.regs.frame 58 b ∧ t.regs.count = 59 ∧
      ∀ is u, .reset ∉ is → countAlong startsFrame is t = 0 → execAll is t = .next u →
        u.regs.frame = t.regs.frame ∧ u.regs.count = 59

/-- 10_state.md R36 to R39: an `EDGE` that commits nothing leaves the result register, `FULL` and `OVERRUN`; one that is neither
a framing error nor a completed frame leaves `LAST_OUTCOME` too. -/
def Obligations.OnlyFrameEventsTouchTheHandOff : Prop :=
  ∀ (ts : Ts) (lvl : Bool) (s t : State), exec (.edge ts lvl) s = .next t →
    (commitsFrame (.edge ts lvl) s = false →
      t.regs.SameResult s.regs ∧ t.regs.full = s.regs.full ∧ t.regs.overrun = s.regs.overrun) ∧
    (completesFrame (.edge ts lvl) s = false → framingError (.edge ts lvl) s = false →
      t.regs.lastOutcome = s.regs.lastOutcome)

/-- 41_frame_decode.md R150: what a single flipped bit of a frame that commits does, for each of the 59 bits. The two frames
are those that two operations complete, in two states with the same configuration. -/
def Obligations.SingleBitErrors : Prop :=
  ∀ (i j : Instr) (s u : State) (b d : Bool) (k : Nat) (t v : State),
    s.cfg = u.cfg → s.regs.count = 58 → u.regs.count = 58 → pushedBit i s = some b → pushedBit j u = some d → k < 59 →
    setFrameBit u.regs.frame 58 d = setFrameBit s.regs.frame 58 b ^^^ (1#59 <<< k) →
    exec i s = .next t → exec j u = .next v → t.regs.lastOutcome = .committed →
    if k = 0 ∨ k = 20 then v.regs.lastOutcome = .markerFail
    else if k ≤ 19 then v.regs.lastOutcome = .committed ∧ v.regs.SameResult t.regs
    else if k ≤ 28 then v.regs.lastOutcome = .parityMinuteFail
    else if k ≤ 35 then v.regs.lastOutcome = .parityHourFail
    else v.regs.lastOutcome = .parityDateFail

/-- 41_frame_decode.md R151: two runs of the same operations from states that differ at most in the frame bits 1 to 19 end
alike, with the same responses, and differ at most in those bits. -/
def Obligations.FrameBitsOneToNineteenAreNeverRead : Prop :=
  ∀ (is : List Instr) (s t u : State), SameButUnreadBits s t → execAll is s = .next u →
    ∃ v, execAll is t = .next v ∧ SameButUnreadBits u v

/-! ### Invariants -/

/-- The invariant (10_state.md R20, R31, R35) holds with the registers at reset under every configuration (00_scope.md R6), and
so at `State.reset`, whose configuration is the model's choice (assumption log 1). -/
def Obligations.RegistersWellFormedAtReset : Prop := ∀ s : State, s.regs = State.reset.regs → s.Inv

/-- 10_state.md R31, R35 and R20: every step from a state that meets the invariant, whichever operation any agent has issued,
gives a state that meets it. -/
def Obligations.EveryStepKeepsTheRegistersWellFormed : Prop :=
  ∀ s t : State, s.Inv → step s = .next t → t.Inv

/-- 60_exceptions.md R200: no step faults from a state that meets the invariant. -/
def Obligations.NoStepFaults : Prop := ∀ (s : State) (e : Fault), s.Inv → step s ≠ .fault e

/-- 20_memory.md R56 and R52: from a state that meets the invariant every legal operation completes in one step. -/
def Obligations.EveryLegalOperationCompletes : Prop :=
  ∀ (s : State) (a : Agent) (turns : List Agent) (w : EventWord) (rest : List EventWord) (i : Instr),
    s.Inv → s.cfg.WellFormed → s.schedule = a :: turns → queueOf s a = w :: rest → decode s.cfg w = .ok i →
    ∃ t, step s = .next t ∧ exec i (serve s a turns rest) = .next t

/-! ### Laws of whole runs -/

/-- 40_edge.md R113: between two consecutive frame starts at most one operation runs the decode. -/
def Obligations.OneDecodePerMinute : Prop :=
  ∀ (is : List Instr) (s t : State), execAll is s = .next t → countAlong startsFrame is s = 0 →
    countAlong completesFrame is s ≤ 1

/-- 40_edge.md R114: in a run that starts just after a frame start and sees no other one, a commit comes after exactly 59
pushed bits and no framing error. -/
def Obligations.CommitNeedsFiftyNineBits : Prop :=
  ∀ (is : List Instr) (s t : State), s.regs.state = .receivingOne → s.regs.count = 0 → execAll is s = .next t →
    countAlong startsFrame is s = 0 → 1 ≤ countAlong commitsFrame is s →
    countAlong pushesBit is s = 59 ∧ countAlong framingError is s = 0

/-- 70_reset_and_hazards.md R232: the first commit after reset needs at least 119 accepted edges. -/
def Obligations.FirstCommitNeedsManyEdges : Prop :=
  ∀ (is : List Instr) (s t : State), s.regs = State.reset.regs → execAll is s = .next t →
    1 ≤ countAlong commitsFrame is s → 119 ≤ countAlong acceptsEdge is s

/-- 70_reset_and_hazards.md R232: and at least 120 when consecutive accepted edges alternate in level. That the alternating
edges are the accepted ones is the model's reading (assumption log 13). -/
def Obligations.AlternatingEdgesNeedOneMore : Prop :=
  ∀ (is : List Instr) (s t : State), s.regs = State.reset.regs → execAll is s = .next t → alternates none is s = true →
    1 ≤ countAlong commitsFrame is s → 120 ≤ countAlong acceptsEdge is s

/-- 10_state.md R28 and R44, 93_implementation_defined.md I17: registers that no rule reads in the present state are invisible
for the rest of every run: the responses and everything an agent can observe come out the same. -/
def Obligations.UnreadRegistersAreInvisible : Prop :=
  ∀ (is : List Instr) (s t u : State), s.Inv → t.Inv → (∀ i ∈ is, i.WellFormed s.cfg) → SameButHidden s t →
    execAll is s = .next u → ∃ v, execAll is t = .next v ∧ SameButHidden u v

/-- 40_edge.md R107, R108, 41_frame_decode.md R140: reception end to end. The pulses of any 59-bit frame (the expansion of
`FRAMEBITS`, 30_encoding.md R87), their first leading edge a minute boundary and their widths in the two windows, are received as
that frame, which is committed or rejected as its checks say. -/
def Obligations.WholeFrameIsReceived : Prop :=
  ∀ (s : State) (k : AsmConstants) (t0 : Nat) (f : Frame),
    let first := BitVec.ofNat 32 (t0 % 2 ^ s.cfg.tsWidth)
    s.cfg.WellFormed → s.regs.state = .syncSearch → s.Accepts first → s.Boundary first →
    s.cfg.shortMin ≤ k.w0 → k.w0 ≤ s.cfg.shortMax → s.cfg.longMin ≤ k.w1 → k.w1 ≤ s.cfg.longMax →
    k.w1 + s.cfg.debounceMin ≤ k.sec → k.sec < s.cfg.syncMin →
    ∃ t, execAll (asmFrameBits s.cfg k t0 f 0 58) s = .next t ∧ t.regs.state = .syncSearch ∧ t.regs.frame = f ∧
      match failedCheck s.cfg f with
      | none =>
        t.regs.HoldsResultOf f ∧ t.regs.full = true ∧ t.regs.overrun = (s.regs.overrun || s.regs.full) ∧
          t.regs.lastOutcome = .committed
      | some code =>
        t.regs.SameResult s.regs ∧ t.regs.full = s.regs.full ∧ t.regs.overrun = s.regs.overrun ∧
          t.regs.lastOutcome = code

/-- 20_memory.md R52 and R53, 00_scope.md R10, on the model's queues and schedule (assumption log 2): under a well-formed
configuration, when the words of the next k turns are legal and their operations, performed in order, answer, the run of k
steps answers too, with the same registers and response words. -/
def Obligations.DeliveredOperationsArePerformed : Prop :=
  ∀ (k : Nat) (s u : State) (is : List Instr), s.cfg.WellFormed →
    (deliveredWords (s.schedule.take k) s).map (decode s.cfg) = is.map .ok → execAll is s = .next u →
    ∃ t, Sys2Proof.core.run k s = .next t ∧ t.regs = u.regs ∧
      t.responses.map Response.word = u.responses.map Response.word
end

