-- ==== Sys2Proof/Laws/Bits.lean ====
section
/-! SUPPORT. Bits of the frame: the bit push, the parity groups and the digit fields. -/

namespace Sys2Proof.Machine

/-- `FRAME[k] <- b` writes bit `k` and no other (spec 10_state.md R34). -/
theorem getLsbD_setFrameBit (f : Frame) (k j : Nat) (b : Bool) (hj : j < 59) :
    (setFrameBit f k b).getLsbD j = if j = k then b else f.getLsbD j := by
  unfold setFrameBit
  simp only [BitVec.getLsbD_or, BitVec.getLsbD_and, BitVec.getLsbD_not, BitVec.getLsbD_shiftLeft, hj, decide_true,
    Bool.true_and]
  by_cases hjk : j = k
  · subst hjk; cases b <;> simp
  · by_cases hlt : j < k
    · simp [hlt, hjk]
    · have h1 : j - k ≠ 0 := by omega
      have h2 : (BitVec.ofNat 59 b.toNat).getLsbD (j - k) = false := by
        cases b
        · simp
        · simp [BitVec.getLsbD_one, h1]
      simp [hlt, hjk, h2, BitVec.getLsbD_one, h1]

/-- The bits of an `EDGE` word (30_encoding.md R70). -/
theorem getLsbD_encode_edge (ts : Ts) (lvl : Bool) (k : Nat) :
    (encode (.edge ts lvl)).getLsbD k =
      if k < 2 then (1#2).getLsbD k else if k = 2 then lvl else if k < 8 then false else ts.getLsbD (k - 8) := by
  show (ts ++ 0#5 ++ BitVec.ofBool lvl ++ 1#2 : BitVec 40).getLsbD k = _
  rw [BitVec.getLsbD_append, BitVec.getLsbD_append, BitVec.getLsbD_append]
  by_cases h1 : k < 2
  · simp [h1]
  · by_cases h2 : k = 2
    · subst h2; simp
    · by_cases h3 : k < 8
      · simp [h1, h2, h3, show ¬k - 2 < 1 by omega, show k - 2 - 1 < 5 by omega]
      · simp [h1, h2, h3, show ¬k - 2 < 1 by omega, show ¬k - 2 - 1 < 5 by omega, show k - 2 - 1 - 5 = k - 8 by omega]

/-- The exclusive-or of a list of bits, folded from any starting value. -/
theorem foldl_xor_start (l : List Nat) (g : Nat → Bool) (p : Bool) :
    l.foldl (fun q k => xor q (g k)) p = xor p (l.foldl (fun q k => xor q (g k)) false) := by
  induction l generalizing p with
  | nil => simp
  | cons k l ih => simp only [List.foldl_cons, Bool.false_xor]; rw [ih, ih (g k), Bool.xor_assoc]

/-- `xor_reduce` is 1 exactly when the number of one bits is odd (00_scope.md R13). -/
theorem xorReduce_eq_ones {w : Nat} (v : BitVec w) :
    xorReduce v = decide (((List.range w).filter fun k => v.getLsbD k).length % 2 = 1) := by
  unfold xorReduce
  generalize List.range w = l
  induction l with
  | nil => simp
  | cons k l ih =>
    rw [List.foldl_cons, foldl_xor_start, ih]
    cases h : v.getLsbD k
    · simp [h]
    · simp only [h, Bool.xor_true, Bool.not_false, Bool.true_xor, List.filter_cons_of_pos, List.length_cons]
      rw [← decide_not, decide_eq_decide]
      omega

/-- Flipping one bit inside the field flips its `xor_reduce`; flipping none leaves it. -/
theorem xorReduce_flip {w : Nat} (v u : BitVec w) (j : Nat)
    (h : ∀ k, k < w → u.getLsbD k = xor (v.getLsbD k) (decide (k = j))) :
    xorReduce u = xor (xorReduce v) (decide (j < w)) := by
  have key : ∀ l : List Nat, (∀ k ∈ l, k < w) → l.Nodup →
      l.foldl (fun p k => xor p (u.getLsbD k)) false =
        xor (l.foldl (fun p k => xor p (v.getLsbD k)) false) (decide (j ∈ l)) := by
    intro l hl hn
    induction l with
    | nil => simp
    | cons a l ih =>
      have ha := h a (hl a (by simp))
      have ih' := ih (fun k hk => hl k (by simp [hk])) (List.nodup_cons.mp hn).2
      have hnot := (List.nodup_cons.mp hn).1
      rw [List.foldl_cons, List.foldl_cons, foldl_xor_start, foldl_xor_start (p := xor false (v.getLsbD a)), ih', ha]
      by_cases hja : a = j
      · subst hja; simp [hnot]
      · have : ¬j = a := fun e => hja e.symm
        simp [hja, this]
  have := key (List.range w) (by simp) List.nodup_range
  simpa [xorReduce] using this

/-- A parity group is odd when the number of its one bits is (00_scope.md R13). -/
theorem xorReduce_extract (f : Frame) {lo hi : Nat} (h : lo ≤ hi) :
    xorReduce (f.extractLsb hi lo) = decide (onesIn f lo hi % 2 = 1) := by
  rw [xorReduce_eq_ones]
  unfold onesIn
  rw [show hi + 1 - lo = hi - lo + 1 by omega]
  have hf : ((List.range (hi - lo + 1)).filter fun k => (f.extractLsb hi lo).getLsbD k) =
      (List.range (hi - lo + 1)).filter fun k => f.getLsbD (lo + k) :=
    List.filter_congr fun k hk => by simp [show k < hi - lo + 1 by simpa using hk]
  rw [hf]

/-- One more bit of a field: the field from bit `lo` on, as that bit and the field above it. -/
theorem toNat_field_succ (f : Frame) (lo n : Nat) :
    (f.extractLsb' lo (n + 1)).toNat = bitValue f lo + 2 * (f.extractLsb' (lo + 1) n).toNat := by
  unfold bitValue
  simp only [BitVec.extractLsb'_toNat]
  rw [Nat.pow_succ, Nat.mul_comm, Nat.mod_mul, BitVec.getLsbD, Nat.testBit_eq_decide_div_mod_eq,
    Nat.shiftRight_eq_div_pow, Nat.shiftRight_eq_div_pow, Nat.pow_succ, Nat.div_div_eq_div_mul]
  congr 1
  rcases Nat.mod_two_eq_zero_or_one (f.toNat / 2 ^ lo) with h | h <;> simp [h]

/-- A field of no bits. -/
theorem toNat_field_zero (f : Frame) (lo : Nat) : (f.extractLsb' lo 0).toNat = 0 := by simp

/-- The digits of 41_frame_decode.md R145, combined, give the weights of 30_encoding.md R82. -/
theorem fields_eq_weighted (f : Frame) :
    frameMinute f = weightedMinute f ∧ frameHour f = weightedHour f ∧ frameDay f = weightedDay f ∧
    frameDow f = weightedDow f ∧ frameMonth f = weightedMonth f ∧ frameYear f = weightedYear f := by
  unfold frameMinute frameHour frameDay frameDow frameMonth frameYear bcd weightedMinute weightedHour weightedDay
    weightedDow weightedMonth weightedYear BitVec.extractLsb
  simp only [Nat.reduceSub, Nat.reduceAdd, toNat_field_succ, toNat_field_zero]
  refine ⟨?_, ?_, ?_, ?_, ?_, ?_⟩ <;> omega

/-- A bit's value is 0 or 1. -/
theorem bitValue_le (f : Frame) (k : Nat) : bitValue f k ≤ 1 := by
  unfold bitValue
  cases f.getLsbD k <;> simp

end Sys2Proof.Machine
end

