-- ==== Sys2Proof/Laws/State.lean ====
section
/-! SUPPORT. One lemma per field per named update of the registers and of the state, so that no later proof unfolds a
record update. -/

namespace Sys2Proof.Machine


/-! ### `clearFrame` -/

@[simp] theorem clearFrame_state (r : Regs) : (clearFrame r).state = r.state := rfl
@[simp] theorem clearFrame_podRefTs (r : Regs) : (clearFrame r).podRefTs = r.podRefTs := rfl
@[simp] theorem clearFrame_podRefValid (r : Regs) : (clearFrame r).podRefValid = r.podRefValid := rfl
@[simp] theorem clearFrame_lastEdgeTs (r : Regs) : (clearFrame r).lastEdgeTs = r.lastEdgeTs := rfl
@[simp] theorem clearFrame_lastEdgeValid (r : Regs) : (clearFrame r).lastEdgeValid = r.lastEdgeValid := rfl
@[simp] theorem clearFrame_lastLeadTs (r : Regs) : (clearFrame r).lastLeadTs = r.lastLeadTs := rfl
@[simp] theorem clearFrame_lastLeadValid (r : Regs) : (clearFrame r).lastLeadValid = r.lastLeadValid := rfl
@[simp] theorem clearFrame_frame (r : Regs) : (clearFrame r).frame = 0 := rfl
@[simp] theorem clearFrame_count (r : Regs) : (clearFrame r).count = 0 := rfl
@[simp] theorem clearFrame_rMinute (r : Regs) : (clearFrame r).rMinute = r.rMinute := rfl
@[simp] theorem clearFrame_rHour (r : Regs) : (clearFrame r).rHour = r.rHour := rfl
@[simp] theorem clearFrame_rDay (r : Regs) : (clearFrame r).rDay = r.rDay := rfl
@[simp] theorem clearFrame_rDow (r : Regs) : (clearFrame r).rDow = r.rDow := rfl
@[simp] theorem clearFrame_rMonth (r : Regs) : (clearFrame r).rMonth = r.rMonth := rfl
@[simp] theorem clearFrame_rYear (r : Regs) : (clearFrame r).rYear = r.rYear := rfl
@[simp] theorem clearFrame_full (r : Regs) : (clearFrame r).full = r.full := rfl
@[simp] theorem clearFrame_overrun (r : Regs) : (clearFrame r).overrun = r.overrun := rfl
@[simp] theorem clearFrame_lastOutcome (r : Regs) : (clearFrame r).lastOutcome = r.lastOutcome := rfl

/-! ### `writeResult` -/

@[simp] theorem writeResult_state (f : Frame) (r : Regs) : (writeResult f r).state = r.state := rfl
@[simp] theorem writeResult_podRefTs (f : Frame) (r : Regs) : (writeResult f r).podRefTs = r.podRefTs := rfl
@[simp] theorem writeResult_podRefValid (f : Frame) (r : Regs) : (writeResult f r).podRefValid = r.podRefValid := rfl
@[simp] theorem writeResult_lastEdgeTs (f : Frame) (r : Regs) : (writeResult f r).lastEdgeTs = r.lastEdgeTs := rfl
@[simp] theorem writeResult_lastEdgeValid (f : Frame) (r : Regs) : (writeResult f r).lastEdgeValid = r.lastEdgeValid := rfl
@[simp] theorem writeResult_lastLeadTs (f : Frame) (r : Regs) : (writeResult f r).lastLeadTs = r.lastLeadTs := rfl
@[simp] theorem writeResult_lastLeadValid (f : Frame) (r : Regs) : (writeResult f r).lastLeadValid = r.lastLeadValid := rfl
@[simp] theorem writeResult_frame (f : Frame) (r : Regs) : (writeResult f r).frame = r.frame := rfl
@[simp] theorem writeResult_count (f : Frame) (r : Regs) : (writeResult f r).count = r.count := rfl
@[simp] theorem writeResult_rMinute (f : Frame) (r : Regs) : (writeResult f r).rMinute = BitVec.ofNat 7 (frameMinute f) := rfl
@[simp] theorem writeResult_rHour (f : Frame) (r : Regs) : (writeResult f r).rHour = BitVec.ofNat 6 (frameHour f) := rfl
@[simp] theorem writeResult_rDay (f : Frame) (r : Regs) : (writeResult f r).rDay = BitVec.ofNat 6 (frameDay f) := rfl
@[simp] theorem writeResult_rDow (f : Frame) (r : Regs) : (writeResult f r).rDow = BitVec.ofNat 3 (frameDow f) := rfl
@[simp] theorem writeResult_rMonth (f : Frame) (r : Regs) : (writeResult f r).rMonth = BitVec.ofNat 5 (frameMonth f) := rfl
@[simp] theorem writeResult_rYear (f : Frame) (r : Regs) : (writeResult f r).rYear = BitVec.ofNat 8 (frameYear f) := rfl
@[simp] theorem writeResult_full (f : Frame) (r : Regs) : (writeResult f r).full = r.full := rfl
@[simp] theorem writeResult_overrun (f : Frame) (r : Regs) : (writeResult f r).overrun = r.overrun := rfl
@[simp] theorem writeResult_lastOutcome (f : Frame) (r : Regs) : (writeResult f r).lastOutcome = r.lastOutcome := rfl

/-! ### `commitFrame` -/

@[simp] theorem commitFrame_state (f : Frame) (r : Regs) : (commitFrame f r).state = r.state := rfl
@[simp] theorem commitFrame_podRefTs (f : Frame) (r : Regs) : (commitFrame f r).podRefTs = r.podRefTs := rfl
@[simp] theorem commitFrame_podRefValid (f : Frame) (r : Regs) : (commitFrame f r).podRefValid = r.podRefValid := rfl
@[simp] theorem commitFrame_lastEdgeTs (f : Frame) (r : Regs) : (commitFrame f r).lastEdgeTs = r.lastEdgeTs := rfl
@[simp] theorem commitFrame_lastEdgeValid (f : Frame) (r : Regs) : (commitFrame f r).lastEdgeValid = r.lastEdgeValid := rfl
@[simp] theorem commitFrame_lastLeadTs (f : Frame) (r : Regs) : (commitFrame f r).lastLeadTs = r.lastLeadTs := rfl
@[simp] theorem commitFrame_lastLeadValid (f : Frame) (r : Regs) : (commitFrame f r).lastLeadValid = r.lastLeadValid := rfl
@[simp] theorem commitFrame_frame (f : Frame) (r : Regs) : (commitFrame f r).frame = r.frame := rfl
@[simp] theorem commitFrame_count (f : Frame) (r : Regs) : (commitFrame f r).count = r.count := rfl
@[simp] theorem commitFrame_rMinute (f : Frame) (r : Regs) : (commitFrame f r).rMinute = BitVec.ofNat 7 (frameMinute f) := rfl
@[simp] theorem commitFrame_rHour (f : Frame) (r : Regs) : (commitFrame f r).rHour = BitVec.ofNat 6 (frameHour f) := rfl
@[simp] theorem commitFrame_rDay (f : Frame) (r : Regs) : (commitFrame f r).rDay = BitVec.ofNat 6 (frameDay f) := rfl
@[simp] theorem commitFrame_rDow (f : Frame) (r : Regs) : (commitFrame f r).rDow = BitVec.ofNat 3 (frameDow f) := rfl
@[simp] theorem commitFrame_rMonth (f : Frame) (r : Regs) : (commitFrame f r).rMonth = BitVec.ofNat 5 (frameMonth f) := rfl
@[simp] theorem commitFrame_rYear (f : Frame) (r : Regs) : (commitFrame f r).rYear = BitVec.ofNat 8 (frameYear f) := rfl
@[simp] theorem commitFrame_full (f : Frame) (r : Regs) : (commitFrame f r).full = true := rfl
@[simp] theorem commitFrame_overrun (f : Frame) (r : Regs) : (commitFrame f r).overrun = (r.overrun || r.full) := rfl
@[simp] theorem commitFrame_lastOutcome (f : Frame) (r : Regs) : (commitFrame f r).lastOutcome = .committed := rfl

/-! ### `decodeAndCommit: what it never writes (41_frame_decode.md R140)` -/

@[simp] theorem decodeAndCommit_state (c : Config) (r : Regs) : (decodeAndCommit c r).state = r.state := by unfold decodeAndCommit; split <;> rfl
@[simp] theorem decodeAndCommit_podRefTs (c : Config) (r : Regs) : (decodeAndCommit c r).podRefTs = r.podRefTs := by unfold decodeAndCommit; split <;> rfl
@[simp] theorem decodeAndCommit_podRefValid (c : Config) (r : Regs) : (decodeAndCommit c r).podRefValid = r.podRefValid := by unfold decodeAndCommit; split <;> rfl
@[simp] theorem decodeAndCommit_lastEdgeTs (c : Config) (r : Regs) : (decodeAndCommit c r).lastEdgeTs = r.lastEdgeTs := by unfold decodeAndCommit; split <;> rfl
@[simp] theorem decodeAndCommit_lastEdgeValid (c : Config) (r : Regs) : (decodeAndCommit c r).lastEdgeValid = r.lastEdgeValid := by unfold decodeAndCommit; split <;> rfl
@[simp] theorem decodeAndCommit_lastLeadTs (c : Config) (r : Regs) : (decodeAndCommit c r).lastLeadTs = r.lastLeadTs := by unfold decodeAndCommit; split <;> rfl
@[simp] theorem decodeAndCommit_lastLeadValid (c : Config) (r : Regs) : (decodeAndCommit c r).lastLeadValid = r.lastLeadValid := by unfold decodeAndCommit; split <;> rfl
@[simp] theorem decodeAndCommit_frame (c : Config) (r : Regs) : (decodeAndCommit c r).frame = r.frame := by unfold decodeAndCommit; split <;> rfl
@[simp] theorem decodeAndCommit_count (c : Config) (r : Regs) : (decodeAndCommit c r).count = r.count := by unfold decodeAndCommit; split <;> rfl

/-! ### `syncEval: what it never writes (40_edge.md R107)` -/

@[simp] theorem syncEval_podRefTs (c : Config) (ts : Ts) (lead : Bool) (r : Regs) : (syncEval c ts lead r).podRefTs = r.podRefTs := by unfold syncEval; split <;> rfl
@[simp] theorem syncEval_podRefValid (c : Config) (ts : Ts) (lead : Bool) (r : Regs) : (syncEval c ts lead r).podRefValid = r.podRefValid := by unfold syncEval; split <;> rfl
@[simp] theorem syncEval_lastEdgeTs (c : Config) (ts : Ts) (lead : Bool) (r : Regs) : (syncEval c ts lead r).lastEdgeTs = r.lastEdgeTs := by unfold syncEval; split <;> rfl
@[simp] theorem syncEval_lastEdgeValid (c : Config) (ts : Ts) (lead : Bool) (r : Regs) : (syncEval c ts lead r).lastEdgeValid = r.lastEdgeValid := by unfold syncEval; split <;> rfl
@[simp] theorem syncEval_lastLeadTs (c : Config) (ts : Ts) (lead : Bool) (r : Regs) : (syncEval c ts lead r).lastLeadTs = r.lastLeadTs := by unfold syncEval; split <;> rfl
@[simp] theorem syncEval_lastLeadValid (c : Config) (ts : Ts) (lead : Bool) (r : Regs) : (syncEval c ts lead r).lastLeadValid = r.lastLeadValid := by unfold syncEval; split <;> rfl
@[simp] theorem syncEval_rMinute (c : Config) (ts : Ts) (lead : Bool) (r : Regs) : (syncEval c ts lead r).rMinute = r.rMinute := by unfold syncEval; split <;> rfl
@[simp] theorem syncEval_rHour (c : Config) (ts : Ts) (lead : Bool) (r : Regs) : (syncEval c ts lead r).rHour = r.rHour := by unfold syncEval; split <;> rfl
@[simp] theorem syncEval_rDay (c : Config) (ts : Ts) (lead : Bool) (r : Regs) : (syncEval c ts lead r).rDay = r.rDay := by unfold syncEval; split <;> rfl
@[simp] theorem syncEval_rDow (c : Config) (ts : Ts) (lead : Bool) (r : Regs) : (syncEval c ts lead r).rDow = r.rDow := by unfold syncEval; split <;> rfl
@[simp] theorem syncEval_rMonth (c : Config) (ts : Ts) (lead : Bool) (r : Regs) : (syncEval c ts lead r).rMonth = r.rMonth := by unfold syncEval; split <;> rfl
@[simp] theorem syncEval_rYear (c : Config) (ts : Ts) (lead : Bool) (r : Regs) : (syncEval c ts lead r).rYear = r.rYear := by unfold syncEval; split <;> rfl
@[simp] theorem syncEval_full (c : Config) (ts : Ts) (lead : Bool) (r : Regs) : (syncEval c ts lead r).full = r.full := by unfold syncEval; split <;> rfl
@[simp] theorem syncEval_overrun (c : Config) (ts : Ts) (lead : Bool) (r : Regs) : (syncEval c ts lead r).overrun = r.overrun := by unfold syncEval; split <;> rfl
@[simp] theorem syncEval_lastOutcome (c : Config) (ts : Ts) (lead : Bool) (r : Regs) : (syncEval c ts lead r).lastOutcome = r.lastOutcome := by unfold syncEval; split <;> rfl

/-! ### `resync: what it writes whatever the edge is, and what it never writes (40_edge.md R110)` -/

@[simp] theorem resync_podRefTs (c : Config) (code : FrameOutcome) (ts : Ts) (lead : Bool) (r : Regs) : (resync c code ts lead r).podRefTs = r.podRefTs := by simp [resync]
@[simp] theorem resync_podRefValid (c : Config) (code : FrameOutcome) (ts : Ts) (lead : Bool) (r : Regs) : (resync c code ts lead r).podRefValid = r.podRefValid := by simp [resync]
@[simp] theorem resync_lastEdgeTs (c : Config) (code : FrameOutcome) (ts : Ts) (lead : Bool) (r : Regs) : (resync c code ts lead r).lastEdgeTs = r.lastEdgeTs := by simp [resync]
@[simp] theorem resync_lastEdgeValid (c : Config) (code : FrameOutcome) (ts : Ts) (lead : Bool) (r : Regs) : (resync c code ts lead r).lastEdgeValid = r.lastEdgeValid := by simp [resync]
@[simp] theorem resync_lastLeadTs (c : Config) (code : FrameOutcome) (ts : Ts) (lead : Bool) (r : Regs) : (resync c code ts lead r).lastLeadTs = r.lastLeadTs := by simp [resync]
@[simp] theorem resync_lastLeadValid (c : Config) (code : FrameOutcome) (ts : Ts) (lead : Bool) (r : Regs) : (resync c code ts lead r).lastLeadValid = r.lastLeadValid := by simp [resync]
@[simp] theorem resync_frame (c : Config) (code : FrameOutcome) (ts : Ts) (lead : Bool) (r : Regs) : (resync c code ts lead r).frame = 0 := by unfold resync syncEval; split <;> rfl
@[simp] theorem resync_count (c : Config) (code : FrameOutcome) (ts : Ts) (lead : Bool) (r : Regs) : (resync c code ts lead r).count = 0 := by unfold resync syncEval; split <;> rfl
@[simp] theorem resync_rMinute (c : Config) (code : FrameOutcome) (ts : Ts) (lead : Bool) (r : Regs) : (resync c code ts lead r).rMinute = r.rMinute := by simp [resync]
@[simp] theorem resync_rHour (c : Config) (code : FrameOutcome) (ts : Ts) (lead : Bool) (r : Regs) : (resync c code ts lead r).rHour = r.rHour := by simp [resync]
@[simp] theorem resync_rDay (c : Config) (code : FrameOutcome) (ts : Ts) (lead : Bool) (r : Regs) : (resync c code ts lead r).rDay = r.rDay := by simp [resync]
@[simp] theorem resync_rDow (c : Config) (code : FrameOutcome) (ts : Ts) (lead : Bool) (r : Regs) : (resync c code ts lead r).rDow = r.rDow := by simp [resync]
@[simp] theorem resync_rMonth (c : Config) (code : FrameOutcome) (ts : Ts) (lead : Bool) (r : Regs) : (resync c code ts lead r).rMonth = r.rMonth := by simp [resync]
@[simp] theorem resync_rYear (c : Config) (code : FrameOutcome) (ts : Ts) (lead : Bool) (r : Regs) : (resync c code ts lead r).rYear = r.rYear := by simp [resync]
@[simp] theorem resync_full (c : Config) (code : FrameOutcome) (ts : Ts) (lead : Bool) (r : Regs) : (resync c code ts lead r).full = r.full := by simp [resync]
@[simp] theorem resync_overrun (c : Config) (code : FrameOutcome) (ts : Ts) (lead : Bool) (r : Regs) : (resync c code ts lead r).overrun = r.overrun := by simp [resync]
@[simp] theorem resync_lastOutcome (c : Config) (code : FrameOutcome) (ts : Ts) (lead : Bool) (r : Regs) : (resync c code ts lead r).lastOutcome = code := by simp [resync]

/-! ### `recordEdge (40_edge.md R111)` -/

@[simp] theorem recordEdge_state (ts : Ts) (lead : Bool) (r : Regs) : (recordEdge ts lead r).state = r.state := by unfold recordEdge; split <;> rfl
@[simp] theorem recordEdge_podRefTs (ts : Ts) (lead : Bool) (r : Regs) : (recordEdge ts lead r).podRefTs = r.podRefTs := by unfold recordEdge; split <;> rfl
@[simp] theorem recordEdge_podRefValid (ts : Ts) (lead : Bool) (r : Regs) : (recordEdge ts lead r).podRefValid = r.podRefValid := by unfold recordEdge; split <;> rfl
@[simp] theorem recordEdge_lastEdgeTs (ts : Ts) (lead : Bool) (r : Regs) : (recordEdge ts lead r).lastEdgeTs = ts := by unfold recordEdge; split <;> rfl
@[simp] theorem recordEdge_lastEdgeValid (ts : Ts) (lead : Bool) (r : Regs) : (recordEdge ts lead r).lastEdgeValid = true := by unfold recordEdge; split <;> rfl
@[simp] theorem recordEdge_lastLeadTs (ts : Ts) (lead : Bool) (r : Regs) : (recordEdge ts lead r).lastLeadTs = if lead && decide (r.state ≠ .powerOnDelay) then ts else r.lastLeadTs := by
  unfold recordEdge; split <;> rfl
@[simp] theorem recordEdge_lastLeadValid (ts : Ts) (lead : Bool) (r : Regs) : (recordEdge ts lead r).lastLeadValid = (lead && decide (r.state ≠ .powerOnDelay) || r.lastLeadValid) := by
  unfold recordEdge; split <;> simp_all
@[simp] theorem recordEdge_frame (ts : Ts) (lead : Bool) (r : Regs) : (recordEdge ts lead r).frame = r.frame := by unfold recordEdge; split <;> rfl
@[simp] theorem recordEdge_count (ts : Ts) (lead : Bool) (r : Regs) : (recordEdge ts lead r).count = r.count := by unfold recordEdge; split <;> rfl
@[simp] theorem recordEdge_rMinute (ts : Ts) (lead : Bool) (r : Regs) : (recordEdge ts lead r).rMinute = r.rMinute := by unfold recordEdge; split <;> rfl
@[simp] theorem recordEdge_rHour (ts : Ts) (lead : Bool) (r : Regs) : (recordEdge ts lead r).rHour = r.rHour := by unfold recordEdge; split <;> rfl
@[simp] theorem recordEdge_rDay (ts : Ts) (lead : Bool) (r : Regs) : (recordEdge ts lead r).rDay = r.rDay := by unfold recordEdge; split <;> rfl
@[simp] theorem recordEdge_rDow (ts : Ts) (lead : Bool) (r : Regs) : (recordEdge ts lead r).rDow = r.rDow := by unfold recordEdge; split <;> rfl
@[simp] theorem recordEdge_rMonth (ts : Ts) (lead : Bool) (r : Regs) : (recordEdge ts lead r).rMonth = r.rMonth := by unfold recordEdge; split <;> rfl
@[simp] theorem recordEdge_rYear (ts : Ts) (lead : Bool) (r : Regs) : (recordEdge ts lead r).rYear = r.rYear := by unfold recordEdge; split <;> rfl
@[simp] theorem recordEdge_full (ts : Ts) (lead : Bool) (r : Regs) : (recordEdge ts lead r).full = r.full := by unfold recordEdge; split <;> rfl
@[simp] theorem recordEdge_overrun (ts : Ts) (lead : Bool) (r : Regs) : (recordEdge ts lead r).overrun = r.overrun := by unfold recordEdge; split <;> rfl
@[simp] theorem recordEdge_lastOutcome (ts : Ts) (lead : Bool) (r : Regs) : (recordEdge ts lead r).lastOutcome = r.lastOutcome := by unfold recordEdge; split <;> rfl

/-! ### `setPodReference (40_edge.md R106)` -/

@[simp] theorem setPodReference_state (ts : Ts) (r : Regs) : (setPodReference ts r).state = r.state := by unfold setPodReference; split <;> rfl
@[simp] theorem setPodReference_podRefTs (ts : Ts) (r : Regs) : (setPodReference ts r).podRefTs = if r.podRefValid then r.podRefTs else ts := by unfold setPodReference; split <;> rfl
@[simp] theorem setPodReference_podRefValid (ts : Ts) (r : Regs) : (setPodReference ts r).podRefValid = true := by unfold setPodReference; split <;> simp_all
@[simp] theorem setPodReference_lastEdgeTs (ts : Ts) (r : Regs) : (setPodReference ts r).lastEdgeTs = r.lastEdgeTs := by unfold setPodReference; split <;> rfl
@[simp] theorem setPodReference_lastEdgeValid (ts : Ts) (r : Regs) : (setPodReference ts r).lastEdgeValid = r.lastEdgeValid := by unfold setPodReference; split <;> rfl
@[simp] theorem setPodReference_lastLeadTs (ts : Ts) (r : Regs) : (setPodReference ts r).lastLeadTs = r.lastLeadTs := by unfold setPodReference; split <;> rfl
@[simp] theorem setPodReference_lastLeadValid (ts : Ts) (r : Regs) : (setPodReference ts r).lastLeadValid = r.lastLeadValid := by unfold setPodReference; split <;> rfl
@[simp] theorem setPodReference_frame (ts : Ts) (r : Regs) : (setPodReference ts r).frame = r.frame := by unfold setPodReference; split <;> rfl
@[simp] theorem setPodReference_count (ts : Ts) (r : Regs) : (setPodReference ts r).count = r.count := by unfold setPodReference; split <;> rfl
@[simp] theorem setPodReference_rMinute (ts : Ts) (r : Regs) : (setPodReference ts r).rMinute = r.rMinute := by unfold setPodReference; split <;> rfl
@[simp] theorem setPodReference_rHour (ts : Ts) (r : Regs) : (setPodReference ts r).rHour = r.rHour := by unfold setPodReference; split <;> rfl
@[simp] theorem setPodReference_rDay (ts : Ts) (r : Regs) : (setPodReference ts r).rDay = r.rDay := by unfold setPodReference; split <;> rfl
@[simp] theorem setPodReference_rDow (ts : Ts) (r : Regs) : (setPodReference ts r).rDow = r.rDow := by unfold setPodReference; split <;> rfl
@[simp] theorem setPodReference_rMonth (ts : Ts) (r : Regs) : (setPodReference ts r).rMonth = r.rMonth := by unfold setPodReference; split <;> rfl
@[simp] theorem setPodReference_rYear (ts : Ts) (r : Regs) : (setPodReference ts r).rYear = r.rYear := by unfold setPodReference; split <;> rfl
@[simp] theorem setPodReference_full (ts : Ts) (r : Regs) : (setPodReference ts r).full = r.full := by unfold setPodReference; split <;> rfl
@[simp] theorem setPodReference_overrun (ts : Ts) (r : Regs) : (setPodReference ts r).overrun = r.overrun := by unfold setPodReference; split <;> rfl
@[simp] theorem setPodReference_lastOutcome (ts : Ts) (r : Regs) : (setPodReference ts r).lastOutcome = r.lastOutcome := by unfold setPodReference; split <;> rfl

/-! ### `respond, setQueue and serve` -/

@[simp] theorem respond_regs (w : ResponseWord) (s : State) : (respond w s).regs = s.regs := rfl
@[simp] theorem respond_cfg (w : ResponseWord) (s : State) : (respond w s).cfg = s.cfg := rfl
@[simp] theorem respond_edgeQueue (w : ResponseWord) (s : State) : (respond w s).edgeQueue = s.edgeQueue := rfl
@[simp] theorem respond_consumerQueue (w : ResponseWord) (s : State) : (respond w s).consumerQueue = s.consumerQueue := rfl
@[simp] theorem respond_resetQueue (w : ResponseWord) (s : State) : (respond w s).resetQueue = s.resetQueue := rfl
@[simp] theorem respond_schedule (w : ResponseWord) (s : State) : (respond w s).schedule = s.schedule := rfl
@[simp] theorem respond_issuer (w : ResponseWord) (s : State) : (respond w s).issuer = s.issuer := rfl
@[simp] theorem respond_responses (w : ResponseWord) (s : State) : (respond w s).responses = s.responses ++ [⟨s.issuer, w⟩] := rfl
@[simp] theorem setQueue_regs (s : State) (a : Agent) (q : List EventWord) : (setQueue s a q).regs = s.regs := by cases a <;> rfl
@[simp] theorem setQueue_cfg (s : State) (a : Agent) (q : List EventWord) : (setQueue s a q).cfg = s.cfg := by cases a <;> rfl
@[simp] theorem setQueue_schedule (s : State) (a : Agent) (q : List EventWord) : (setQueue s a q).schedule = s.schedule := by cases a <;> rfl
@[simp] theorem setQueue_issuer (s : State) (a : Agent) (q : List EventWord) : (setQueue s a q).issuer = s.issuer := by cases a <;> rfl
@[simp] theorem setQueue_responses (s : State) (a : Agent) (q : List EventWord) : (setQueue s a q).responses = s.responses := by cases a <;> rfl
@[simp] theorem serve_regs (s : State) (a : Agent) (turns : List Agent) (q : List EventWord) : (serve s a turns q).regs = s.regs := by simp [serve]
@[simp] theorem serve_cfg (s : State) (a : Agent) (turns : List Agent) (q : List EventWord) : (serve s a turns q).cfg = s.cfg := by simp [serve]
@[simp] theorem serve_schedule (s : State) (a : Agent) (turns : List Agent) (q : List EventWord) : (serve s a turns q).schedule = turns := rfl
@[simp] theorem serve_issuer (s : State) (a : Agent) (turns : List Agent) (q : List EventWord) : (serve s a turns q).issuer = a := rfl
@[simp] theorem serve_responses (s : State) (a : Agent) (turns : List Agent) (q : List EventWord) : (serve s a turns q).responses = s.responses := by simp [serve]

/-- The queue of an agent after another one's, or its own, was replaced. -/
@[simp] theorem queueOf_setQueue (s : State) (a b : Agent) (q : List EventWord) :
    queueOf (setQueue s a q) b = if b = a then q else queueOf s b := by
  cases a <;> cases b <;> rfl

/-- The queue of an agent after one was served. -/
@[simp] theorem queueOf_serve (s : State) (a b : Agent) (turns : List Agent) (q : List EventWord) :
    queueOf (serve s a turns q) b = if b = a then q else queueOf s b := by
  cases a <;> cases b <;> rfl

/-- The queues do not depend on the registers. -/
@[simp] theorem queueOf_with_regs (s : State) (r : Regs) (a : Agent) : queueOf { s with regs := r } a = queueOf s a := by
  cases a <;> rfl

end Sys2Proof.Machine
end

