-- ==== Sys2Proof/Laws/Ops.lean ====
section
/-! SUPPORT. For each shared operation, once, everything it can do. -/

namespace Sys2Proof.Machine

/-- The bit push below 59 (20_memory.md R62). -/
theorem pushBit_of_lt {b : Bool} {r : Regs} (h : r.count.toNat < 59) :
    pushBit b r = .ok { r with frame := setFrameBit r.frame r.count.toNat b, count := r.count + 1 } := if_pos h

/-- What a bit push that answers has done. -/
theorem pushBit_ok {b : Bool} {r r' : Regs} (h : pushBit b r = .ok r') :
    r.count.toNat < 59 ∧ r' = { r with frame := setFrameBit r.frame r.count.toNat b, count := r.count + 1 } := by
  unfold pushBit at h
  split at h
  · exact ⟨‹_›, (Except.ok.inj h).symm⟩
  · cases h

/-- `COUNT` after a push (10_state.md R40: no write truncates). -/
theorem count_succ_toNat {n : BitVec 6} (h : n.toNat < 59) : (n + 1).toNat = n.toNat + 1 := by
  rw [BitVec.toNat_add]
  have : (1 : BitVec 6).toNat = 1 := rfl
  omega

/-- The minute-boundary test reads only the last leading edge. -/
theorem minuteBoundary_congr {c : Config} {ts : Ts} {lead : Bool} {r q : Regs} (h1 : r.lastLeadTs = q.lastLeadTs)
    (h2 : r.lastLeadValid = q.lastLeadValid) : minuteBoundary c ts lead r = minuteBoundary c ts lead q := by
  simp [minuteBoundary, interval, h1, h2]

/-- A trailing edge is never a minute boundary (40_edge.md R110). -/
@[simp] theorem minuteBoundary_trailing (c : Config) (ts : Ts) (r : Regs) : minuteBoundary c ts false r = false := rfl

/-- `sync_eval` on a minute boundary (40_edge.md R107). -/
theorem syncEval_boundary {c : Config} {ts : Ts} {lead : Bool} {r : Regs} (h : minuteBoundary c ts lead r = true) :
    syncEval c ts lead r = { r with frame := 0, count := 0, state := .receivingOne } := if_pos h

/-- `sync_eval` on any other edge (40_edge.md R107). -/
theorem syncEval_other {c : Config} {ts : Ts} {lead : Bool} {r : Regs} (h : minuteBoundary c ts lead r = false) :
    syncEval c ts lead r = r := by simp [syncEval, h]

/-- The framing-error action, in one equation (40_edge.md R110). -/
theorem resync_eq (c : Config) (code : FrameOutcome) (ts : Ts) (lead : Bool) (r : Regs) :
    resync c code ts lead r =
      { r with
        frame := 0, count := 0, lastOutcome := code,
        state := if minuteBoundary c ts lead r then .receivingOne else .syncSearch } := by
  have h : minuteBoundary c ts lead { clearFrame r with lastOutcome := code, state := .syncSearch } =
      minuteBoundary c ts lead r := minuteBoundary_congr rfl rfl
  unfold resync syncEval
  rw [h]
  split <;> rfl

/-- The decode records the failed check (41_frame_decode.md R147). -/
theorem decodeAndCommit_failed {c : Config} {r : Regs} {f : Frame} {code : FrameOutcome} (hf : r.frame = f)
    (h : failedCheck c f = some code) : decodeAndCommit c r = { r with lastOutcome := code } := by
  subst hf
  simp [decodeAndCommit, h]

/-- The decode of a frame that passes every check commits it (41_frame_decode.md R148). -/
theorem decodeAndCommit_passed {c : Config} {r : Regs} {f : Frame} (hf : r.frame = f) (h : failedCheck c f = none) :
    decodeAndCommit c r = commitFrame f r := by
  subst hf
  simp [decodeAndCommit, h]

/-- The outcome of the decode (41_frame_decode.md R144). -/
theorem decodeAndCommit_outcome {c : Config} {r : Regs} {f : Frame} (hf : r.frame = f) :
    (decodeAndCommit c r).lastOutcome = (failedCheck c f).getD .committed := by
  cases h : failedCheck c f with
  | none => rw [decodeAndCommit_passed hf h]; rfl
  | some code => rw [decodeAndCommit_failed hf h]; rfl

/-- A received bit below 59 (40_edge.md R108). -/
theorem receiveBit_of_lt {c : Config} {b : Bool} {r : Regs} (h : r.count.toNat < 59) :
    receiveBit c b r =
      .ok (if r.count.toNat = 58 then
        { decodeAndCommit c { r with frame := setFrameBit r.frame r.count.toNat b, count := r.count + 1 } with
          state := .syncSearch }
      else
        { r with
          frame := setFrameBit r.frame r.count.toNat b, count := r.count + 1, state := .receivingZero }) := by
  have hc : (r.count + 1 = 59#6) ↔ r.count.toNat = 58 := by
    rw [← BitVec.toNat_inj, count_succ_toNat h]
    simp
  unfold receiveBit
  rw [pushBit_of_lt h]
  simp only [hc]
  split <;> rfl

/-- A received bit with `COUNT` at 59 or above faults (log 5). -/
theorem receiveBit_of_ge {c : Config} {b : Bool} {r : Regs} (h : ¬r.count.toNat < 59) :
    receiveBit c b r = .error .pushPastFrame := by simp [receiveBit, pushBit, h]

/-- An ignored edge (40_edge.md R104). -/
theorem execEdge_ignored {ts : Ts} {lvl : Bool} {s : State} (h : debounced s.cfg ts s.regs = true) :
    execEdge ts lvl s = .next s := if_pos h

/-- An accepted edge whose state rule answers (40_edge.md R105 and R111). -/
theorem execEdge_accepted {ts : Ts} {lvl : Bool} {s : State} {r : Regs} (h : debounced s.cfg ts s.regs = false)
    (hr : edgeByState s.cfg ts (isLead s.cfg lvl) s.regs = .ok r) :
    execEdge ts lvl s = .next { s with regs := recordEdge ts (isLead s.cfg lvl) r } := by
  simp [execEdge, h, hr]

/-- Everything an `EDGE` that answers can have done. -/
theorem execEdge_cases {ts : Ts} {lvl : Bool} {s t : State} (h : execEdge ts lvl s = .next t) :
    (debounced s.cfg ts s.regs = true ∧ t = s) ∨
    (debounced s.cfg ts s.regs = false ∧ ∃ r, edgeByState s.cfg ts (isLead s.cfg lvl) s.regs = .ok r ∧
      t = { s with regs := recordEdge ts (isLead s.cfg lvl) r }) := by
  unfold execEdge at h
  split at h
  · exact .inl ⟨‹_›, (Host.Outcome.next.inj h).symm⟩
  · next hd =>
    refine .inr ⟨by simpa using hd, ?_⟩
    split at h
    · cases h
    · exact ⟨_, ‹_›, (Host.Outcome.next.inj h).symm⟩

/-- Everything the state's rule of an accepted edge can have done (the rows of 40_edge.md R112). -/
theorem edgeByState_cases {c : Config} {ts : Ts} {lead : Bool} {r q : Regs} (h : edgeByState c ts lead r = .ok q) :
    (r.state = .powerOnDelay ∧ q = edgePowerOnDelay c ts lead r) ∨
    (r.state = .syncSearch ∧ q = syncEval c ts lead r) ∨
    (r.state = .receivingOne ∧ lead = true ∧ q = resync c .levelFail ts lead r) ∨
    (r.state = .receivingOne ∧ lead = false ∧ classify c (pulseWidth c ts r) = none ∧
      q = resync c .widthFail ts lead r) ∨
    (r.state = .receivingOne ∧ lead = false ∧ ∃ b, classify c (pulseWidth c ts r) = some b ∧
      r.count.toNat < 59 ∧ receiveBit c b r = .ok q) ∨
    (r.state = .receivingZero ∧ lead = false ∧ q = resync c .levelFail ts lead r) ∨
    (r.state = .receivingZero ∧ lead = true ∧ interval c ts r < c.syncMin ∧ q = { r with state := .receivingOne }) ∨
    (r.state = .receivingZero ∧ lead = true ∧ c.syncMin ≤ interval c ts r ∧ interval c ts r ≤ c.syncMax ∧
      q = resync c .shortFrame ts lead r) ∨
    (r.state = .receivingZero ∧ lead = true ∧ c.syncMin ≤ interval c ts r ∧ c.syncMax < interval c ts r ∧
      q = resync c .gapFail ts lead r) := by
  unfold edgeByState at h
  split at h
  · next hs => exact .inl ⟨hs, (Except.ok.inj h).symm⟩
  · next hs => exact .inr (.inl ⟨hs, (Except.ok.inj h).symm⟩)
  · next hs =>
    unfold edgeReceivingOne at h
    split at h
    · next hl => exact .inr (.inr (.inl ⟨hs, hl, (Except.ok.inj h).symm⟩))
    · next hl =>
      have hl : lead = false := by simpa using hl
      split at h
      · next hc => exact .inr (.inr (.inr (.inl ⟨hs, hl, hc, (Except.ok.inj h).symm⟩)))
      · next b hc =>
        refine .inr (.inr (.inr (.inr (.inl ⟨hs, hl, b, hc, ?_, h⟩))))
        by_contra hn
        rw [receiveBit_of_ge hn] at h
        cases h
  · next hs =>
    have h := (Except.ok.inj h).symm
    unfold edgeReceivingZero at h
    split at h
    · next hl => exact .inr (.inr (.inr (.inr (.inr (.inl ⟨hs, by simpa using hl, h⟩)))))
    · next hl =>
      have hl : lead = true := by simpa using hl
      split at h
      · next h1 => exact .inr (.inr (.inr (.inr (.inr (.inr (.inl ⟨hs, hl, h1, h⟩))))))
      · next h1 =>
        split at h
        · next h2 => exact .inr (.inr (.inr (.inr (.inr (.inr (.inr (.inl ⟨hs, hl, by omega, h2, h⟩)))))))
        · next h2 => exact .inr (.inr (.inr (.inr (.inr (.inr (.inr (.inr ⟨hs, hl, by omega, by omega, h⟩)))))))

/-- The state's rule faults only on a bit push at 59 or above (log 5). -/
theorem edgeByState_fault {c : Config} {ts : Ts} {lead : Bool} {r : Regs} {e : Fault}
    (h : edgeByState c ts lead r = .error e) : r.state = .receivingOne ∧ ¬r.count.toNat < 59 := by
  unfold edgeByState at h
  split at h
  · cases h
  · cases h
  · next hs =>
    refine ⟨hs, fun hlt => ?_⟩
    unfold edgeReceivingOne at h
    split at h
    · cases h
    · split at h
      · cases h
      · rw [receiveBit_of_lt hlt] at h
        cases h
  · cases h

/-- Everything an operation that answers can have done. -/
theorem exec_cases {i : Instr} {s t : State} (h : exec i s = .next t) :
    (i = .nop ∧ t = s) ∨
    (∃ ts lvl, i = .edge ts lvl ∧ execEdge ts lvl s = .next t) ∨
    (i = .take ∧ t = { respond (responseWord s.regs) s with regs := { s.regs with full := false, overrun := false } }) ∨
    (i = .reset ∧ t = { s with regs := Regs.reset }) := by
  cases i with
  | nop => exact .inl ⟨rfl, (Host.Outcome.next.inj h).symm⟩
  | edge ts lvl => exact .inr (.inl ⟨ts, lvl, rfl, h⟩)
  | take => exact .inr (.inr (.inl ⟨rfl, (Host.Outcome.next.inj h).symm⟩))
  | reset => exact .inr (.inr (.inr ⟨rfl, (Host.Outcome.next.inj h).symm⟩))

/-- No operation refuses. -/
theorem exec_not_refused (i : Instr) (s : State) (e : Refusal) : exec i s ≠ .refused e := by
  cases i with
  | nop => exact fun h => by cases h
  | edge ts lvl =>
    simp only [exec, execEdge]
    split
    · exact fun h => by cases h
    · split <;> exact fun h => by cases h
  | take => exact fun h => by cases h
  | reset => exact fun h => by cases h

/-- What an operation fetches (20_memory.md R53). -/
theorem fetch_some {s s1 : State} {w : EventWord} (h : fetch s = some (w, s1)) :
    ∃ a turns, s.schedule = a :: turns ∧
      ((queueOf s a = [] ∧ w = encode .nop ∧ s1 = serve s a turns []) ∨
        ∃ rest, queueOf s a = w :: rest ∧ s1 = serve s a turns rest) := by
  unfold fetch at h
  split at h
  · cases h
  · next a turns hs =>
    refine ⟨a, turns, hs, ?_⟩
    split at h
    · next hq =>
      have h := Option.some.inj h
      rw [Prod.mk.injEq] at h
      exact .inl ⟨hq, h.1.symm, h.2.symm⟩
    · next v rest hq =>
      have h := Option.some.inj h
      rw [Prod.mk.injEq] at h
      obtain ⟨rfl, rfl⟩ := h
      exact .inr ⟨rest, hq, rfl⟩

/-- Everything a step that answers can have done. -/
theorem step_cases {s t : State} (h : step s = .next t) :
    s.cfg.WellFormed ∧
    ((fetch s = none ∧ t = s) ∨
      ∃ w s1 i, fetch s = some (w, s1) ∧ decode s1.cfg w = .ok i ∧ exec i s1 = .next t) := by
  unfold step at h
  split at h
  · next hw =>
    refine ⟨hw, ?_⟩
    split at h
    · next hf => exact .inl ⟨hf, (Host.Outcome.next.inj h).symm⟩
    · next w s1 hf =>
      split at h
      · cases h
      · next i hd => exact .inr ⟨w, s1, i, hf, hd, h⟩
  · cases h

end Sys2Proof.Machine
end

