-- ==== Sys2Proof/Laws/Events.lean ====
section
/-! SUPPORT. The tests of the rules in the terms of claims (Safety.lean), and which operations are which events. -/

namespace Sys2Proof.Machine

/-- An accepted edge is not ignored (40_edge.md R104). -/
theorem debounced_eq (s : State) (ts : Ts) : debounced s.cfg ts s.regs = !decide (s.Accepts ts) := by
  rw [Bool.eq_iff_iff]
  unfold debounced pulseWidth State.Accepts
  simp

/-- The edge kind (40_edge.md R103). -/
theorem isLead_eq (s : State) (lvl : Bool) : isLead s.cfg lvl = decide (s.Leading lvl) := by
  rw [Bool.eq_iff_iff]
  simp [isLead, State.Leading]

/-- The minute-boundary test (40_edge.md R107). -/
theorem minuteBoundary_eq (s : State) (ts : Ts) (lead : Bool) :
    minuteBoundary s.cfg ts lead s.regs = (lead && decide (s.Boundary ts)) := by
  rw [Bool.eq_iff_iff]
  unfold minuteBoundary inSyncWindow interval State.Boundary
  simp [and_assoc]

/-- The two windows are apart in a well-formed configuration, so a pulse in one of them has the bit of that one
(40_edge.md R108). -/
theorem classify_eq {s : State} (hw : s.cfg.WellFormed) (ts : Ts) :
    classify s.cfg (pulseWidth s.cfg ts s.regs) =
      if s.ShortPulse ts ∨ s.LongPulse ts then some (decide (s.LongPulse ts)) else none := by
  unfold Config.WellFormed at hw
  unfold classify pulseWidth State.ShortPulse State.LongPulse
  split_ifs <;> simp_all
  all_goals omega

/-- The accepted edges (40_edge.md R104). -/
theorem acceptsEdge_edge (ts : Ts) (lvl : Bool) (s : State) : acceptsEdge (.edge ts lvl) s = decide (s.Accepts ts) := by
  simp only [acceptsEdge, debounced_eq, Bool.not_not]

@[simp] theorem acceptsEdge_nop (s : State) : acceptsEdge .nop s = false := rfl
@[simp] theorem acceptsEdge_take (s : State) : acceptsEdge .take s = false := rfl
@[simp] theorem acceptsEdge_reset (s : State) : acceptsEdge .reset s = false := rfl
@[simp] theorem pushedBit_nop (s : State) : pushedBit .nop s = none := rfl
@[simp] theorem pushedBit_take (s : State) : pushedBit .take s = none := rfl
@[simp] theorem pushedBit_reset (s : State) : pushedBit .reset s = none := rfl
@[simp] theorem framingError_nop (s : State) : framingError .nop s = false := rfl
@[simp] theorem framingError_take (s : State) : framingError .take s = false := rfl
@[simp] theorem framingError_reset (s : State) : framingError .reset s = false := rfl
@[simp] theorem startsFrame_nop (s : State) : startsFrame .nop s = false := rfl
@[simp] theorem startsFrame_take (s : State) : startsFrame .take s = false := rfl
@[simp] theorem startsFrame_reset (s : State) : startsFrame .reset s = false := rfl
@[simp] theorem takesFull_nop (s : State) : takesFull .nop s = false := rfl
@[simp] theorem takesFull_edge (ts : Ts) (lvl : Bool) (s : State) : takesFull (.edge ts lvl) s = false := rfl
@[simp] theorem takesFull_take (s : State) : takesFull .take s = s.regs.full := rfl
@[simp] theorem takesFull_reset (s : State) : takesFull .reset s = false := rfl

/-- An operation that pushes no bit completes no frame. -/
theorem completesFrame_of_none {i : Instr} {s : State} (h : pushedBit i s = none) : completesFrame i s = false := by
  simp [completesFrame, pushesBit, h]

/-- An operation that pushes no bit commits no frame. -/
theorem commitsFrame_of_none {i : Instr} {s : State} (h : pushedBit i s = none) : commitsFrame i s = false := by
  simp [commitsFrame, h]

/-- A commit completes a frame (41_frame_decode.md R141). -/
theorem completesFrame_of_commits {i : Instr} {s : State} (h : commitsFrame i s = true) : completesFrame i s = true := by
  unfold commitsFrame at h
  split at h
  · next b hb => simp_all [completesFrame, pushesBit]
  · cases h

/-- An operation that pushes a bit is an accepted trailing edge in `ReceivingOne` with a classified width (40_edge.md
R108). -/
theorem pushedBit_some {i : Instr} {s : State} {b : Bool} (h : pushedBit i s = some b) :
    ∃ ts lvl, i = .edge ts lvl ∧ s.Accepts ts ∧ s.regs.state = .receivingOne ∧ ¬s.Leading lvl ∧
      classify s.cfg (pulseWidth s.cfg ts s.regs) = some b := by
  cases i with
  | edge ts lvl =>
    simp only [pushedBit, acceptsEdge, debounced_eq, isLead_eq, Bool.not_not] at h
    split at h
    · next hc =>
      simp only [Bool.and_eq_true, decide_eq_true_eq, Bool.not_eq_true', decide_eq_false_iff_not] at hc
      exact ⟨ts, lvl, rfl, hc.1.1, hc.1.2, hc.2, h⟩
    · cases h
  | nop => cases h
  | take => cases h
  | reset => cases h

/-- What an operation that pushes a bit leaves, below 59. -/
theorem exec_of_pushedBit {i : Instr} {s : State} {b : Bool} (h : pushedBit i s = some b)
    (hc : s.regs.count.toNat < 59) :
    ∃ ts lvl, i = .edge ts lvl ∧
      exec i s =
        .next { s with regs := { (if s.regs.count.toNat = 58 then
            { decodeAndCommit s.cfg
                { s.regs with frame := setFrameBit s.regs.frame s.regs.count.toNat b, count := s.regs.count + 1 } with
              state := .syncSearch }
          else
            { s.regs with
              frame := setFrameBit s.regs.frame s.regs.count.toNat b, count := s.regs.count + 1,
              state := .receivingZero }) with lastEdgeTs := ts, lastEdgeValid := true } } := by
  obtain ⟨ts, lvl, rfl, ha, hs, hl, hb⟩ := pushedBit_some h
  refine ⟨ts, lvl, rfl, ?_⟩
  have he : edgeByState s.cfg ts (isLead s.cfg lvl) s.regs = receiveBit s.cfg b s.regs := by
    simp [edgeByState, hs, edgeReceivingOne, isLead_eq, hl, hb]
  rw [receiveBit_of_lt hc] at he
  show execEdge ts lvl s = _
  rw [execEdge_accepted (by rw [debounced_eq]; simpa using ha) he, isLead_eq, decide_eq_false hl]
  rfl

/-- What the operation that pushes the 59th bit leaves: the decode of the completed frame (41_frame_decode.md R141). -/
theorem exec_of_last_bit {i : Instr} {s : State} {b : Bool} (hc : s.regs.count.toNat = 58) (h : pushedBit i s = some b) :
    ∃ ts lvl, i = .edge ts lvl ∧
      exec i s =
        .next { s with regs := { decodeAndCommit s.cfg
            { s.regs with frame := setFrameBit s.regs.frame 58 b, count := 59 } with
          state := .syncSearch, lastEdgeTs := ts, lastEdgeValid := true } } := by
  obtain ⟨ts, lvl, hi, he⟩ := exec_of_pushedBit h (by omega)
  have h59 : s.regs.count + 1 = 59 := by
    rw [← BitVec.toNat_inj, count_succ_toNat (by omega), hc]
    rfl
  refine ⟨ts, lvl, hi, ?_⟩
  rw [he, if_pos hc, h59, hc]

/-- The last bit of a frame that passes every check. -/
theorem exec_of_last_bit_passed {i : Instr} {s : State} {b : Bool} {f : Frame} (hc : s.regs.count.toNat = 58)
    (h : pushedBit i s = some b) (hf : setFrameBit s.regs.frame 58 b = f) (hp : failedCheck s.cfg f = none) :
    ∃ ts lvl, i = .edge ts lvl ∧
      exec i s =
        .next { s with regs := { commitFrame f { s.regs with frame := f, count := 59 } with
          state := .syncSearch, lastEdgeTs := ts, lastEdgeValid := true } } := by
  obtain ⟨ts, lvl, hi, he⟩ := exec_of_last_bit hc h
  refine ⟨ts, lvl, hi, ?_⟩
  rw [he, hf, decodeAndCommit_passed (r := { s.regs with frame := f, count := 59 }) rfl hp]

/-- The last bit of a frame that fails a check. -/
theorem exec_of_last_bit_failed {i : Instr} {s : State} {b : Bool} {f : Frame} {code : FrameOutcome}
    (hc : s.regs.count.toNat = 58) (h : pushedBit i s = some b) (hf : setFrameBit s.regs.frame 58 b = f)
    (hp : failedCheck s.cfg f = some code) :
    ∃ ts lvl, i = .edge ts lvl ∧
      exec i s =
        .next { s with regs := { s.regs with
          frame := f, count := 59, lastOutcome := code, state := .syncSearch, lastEdgeTs := ts, lastEdgeValid := true } } := by
  obtain ⟨ts, lvl, hi, he⟩ := exec_of_last_bit hc h
  refine ⟨ts, lvl, hi, ?_⟩
  rw [he, hf, decodeAndCommit_failed (r := { s.regs with frame := f, count := 59 }) rfl hp]

/-- The frame starts exactly when an accepted edge finds a minute boundary past the delay (40_edge.md R107). -/
theorem startsFrame_edge {ts : Ts} {lvl : Bool} {s : State} (ha : s.Accepts ts) (hs : s.regs.state ≠ .powerOnDelay) :
    startsFrame (.edge ts lvl) s = (decide (s.Leading lvl) && decide (s.Boundary ts)) := by
  have hacc : acceptsEdge (.edge ts lvl) s = true := by rw [acceptsEdge_edge]; exact decide_eq_true ha
  simp [startsFrame, hacc, hs, minuteBoundary_eq, isLead_eq]

/-- The rows of 40_edge.md R112 for an accepted edge: the states before and after, `COUNT`, and the events. -/
inductive EdgeRow (ts : Ts) (lvl : Bool) (s t : State) : Prop
  /-- In `PowerOnDelay`, no frame start. -/
  | waiting (before : s.regs.state = .powerOnDelay) (bit : pushedBit (.edge ts lvl) s = none)
      (error : framingError (.edge ts lvl) s = false) (start : startsFrame (.edge ts lvl) s = false)
      (after : t.regs.state = .powerOnDelay ∨ t.regs.state = .syncSearch) (count : t.regs.count = s.regs.count)
  /-- In `SyncSearch`, no boundary. -/
  | searching (before : s.regs.state = .syncSearch) (bit : pushedBit (.edge ts lvl) s = none)
      (error : framingError (.edge ts lvl) s = false) (start : startsFrame (.edge ts lvl) s = false)
      (after : t.regs.state = .syncSearch) (count : t.regs.count = s.regs.count)
  /-- A boundary in `SyncSearch`, or past the delay in `PowerOnDelay`. -/
  | starting (before : s.regs.state = .powerOnDelay ∧ s.regs.lastLeadValid = true ∨ s.regs.state = .syncSearch)
      (bit : pushedBit (.edge ts lvl) s = none)
      (error : framingError (.edge ts lvl) s = false) (start : startsFrame (.edge ts lvl) s = true)
      (lead : s.Leading lvl) (after : t.regs.state = .receivingOne) (count : t.regs.count = 0)
  /-- A framing error whose edge is no boundary. -/
  | failing (before : s.regs.state = .receivingOne ∨ s.regs.state = .receivingZero)
      (bit : pushedBit (.edge ts lvl) s = none) (error : framingError (.edge ts lvl) s = true)
      (start : startsFrame (.edge ts lvl) s = false) (after : t.regs.state = .syncSearch) (count : t.regs.count = 0)
  /-- A framing error whose edge is a boundary. -/
  | restarting (before : s.regs.state = .receivingOne ∨ s.regs.state = .receivingZero)
      (bit : pushedBit (.edge ts lvl) s = none) (error : framingError (.edge ts lvl) s = true)
      (start : startsFrame (.edge ts lvl) s = true) (lead : s.Leading lvl) (after : t.regs.state = .receivingOne)
      (count : t.regs.count = 0)
  /-- A bit, not the last one. -/
  | pushing (b : Bool) (before : s.regs.state = .receivingOne) (bit : pushedBit (.edge ts lvl) s = some b)
      (error : framingError (.edge ts lvl) s = false) (start : startsFrame (.edge ts lvl) s = false)
      (trail : ¬s.Leading lvl) (room : s.regs.count.toNat < 58) (after : t.regs.state = .receivingZero)
      (count : t.regs.count.toNat = s.regs.count.toNat + 1)
  /-- The last bit. -/
  | completing (b : Bool) (before : s.regs.state = .receivingOne) (bit : pushedBit (.edge ts lvl) s = some b)
      (error : framingError (.edge ts lvl) s = false) (start : startsFrame (.edge ts lvl) s = false)
      (trail : ¬s.Leading lvl) (last : s.regs.count.toNat = 58) (after : t.regs.state = .syncSearch)
      (count : t.regs.count = 59)
  /-- The next second begins. -/
  | ticking (before : s.regs.state = .receivingZero) (bit : pushedBit (.edge ts lvl) s = none)
      (error : framingError (.edge ts lvl) s = false) (start : startsFrame (.edge ts lvl) s = false)
      (lead : s.Leading lvl) (after : t.regs.state = .receivingOne) (count : t.regs.count = s.regs.count)

/-- Every accepted edge that answers is one of the rows. -/
theorem edge_row {ts : Ts} {lvl : Bool} {s t : State} (h : exec (.edge ts lvl) s = .next t) (ha : s.Accepts ts) :
    EdgeRow ts lvl s t := by
  have hd : debounced s.cfg ts s.regs = false := by rw [debounced_eq]; simpa using ha
  have hacc : acceptsEdge (.edge ts lvl) s = true := by simp [acceptsEdge, hd]
  rcases execEdge_cases h with ⟨hd', _⟩ | ⟨_, r, hr, rfl⟩
  · rw [hd] at hd'; cases hd'
  have hstate : ∀ q : Regs, (recordEdge ts (isLead s.cfg lvl) q).state = q.state ∧
      (recordEdge ts (isLead s.cfg lvl) q).count = q.count := by
    intro q; unfold recordEdge; split <;> exact ⟨rfl, rfl⟩
  have nobit : s.regs.state ≠ .receivingOne → pushedBit (.edge ts lvl) s = none := by
    intro hs; simp [pushedBit, hs]
  have resyncs : ∀ code, (s.regs.state = .receivingOne ∨ s.regs.state = .receivingZero) →
      pushedBit (.edge ts lvl) s = none → framingError (.edge ts lvl) s = true →
      r = resync s.cfg code ts (isLead s.cfg lvl) s.regs →
      EdgeRow ts lvl s { s with regs := recordEdge ts (isLead s.cfg lvl) r } := by
    intro code hs hb he hq
    have hstart := startsFrame_edge (lvl := lvl) ha (by rcases hs with h | h <;> rw [h] <;> decide)
    subst hq
    rw [resync_eq, minuteBoundary_eq, isLead_eq, ← hstart]
    cases hst : startsFrame (.edge ts lvl) s with
    | true =>
      rw [hst] at hstart
      have hl : s.Leading lvl := by
        by_contra hn
        simp [hn] at hstart
      refine .restarting hs hb he hst hl ?_ ?_
      · rw [← isLead_eq]; exact (hstate _).1
      · rw [← isLead_eq]; exact (hstate _).2
    | false =>
      refine .failing hs hb he hst ?_ ?_
      · rw [← isLead_eq]; exact (hstate _).1
      · rw [← isLead_eq]; exact (hstate _).2
  rcases edgeByState_cases hr with ⟨hs, hq⟩ | ⟨hs, hq⟩ | ⟨hs, hl, hq⟩ | ⟨hs, hl, hc, hq⟩ | ⟨hs, hl, b, hc, hlt, hq⟩ |
    ⟨hs, hl, hq⟩ | ⟨hs, hl, hi, hq⟩ | ⟨hs, hl, hi, hi2, hq⟩ | ⟨hs, hl, hi, hi2, hq⟩
  · have he : framingError (.edge ts lvl) s = false := by simp [framingError, hs]
    have hb := nobit (by rw [hs]; decide)
    have hm : ∀ q : Regs, q.lastLeadTs = s.regs.lastLeadTs → q.lastLeadValid = s.regs.lastLeadValid →
        minuteBoundary s.cfg ts (isLead s.cfg lvl) q = (decide (s.Leading lvl) && decide (s.Boundary ts)) := by
      intro q h1 h2
      rw [minuteBoundary_congr h1 h2, minuteBoundary_eq, isLead_eq]
    have hst : startsFrame (.edge ts lvl) s =
        (decide (s.Leading lvl) && decide (s.Boundary ts) && delayPassed s.cfg ts (setPodReference ts s.regs)) := by
      simp [startsFrame, hacc, hs, minuteBoundary_eq, isLead_eq]
    unfold edgePowerOnDelay at hq
    cases hp : delayPassed s.cfg ts (setPodReference ts s.regs) with
    | false =>
      rw [hp, Bool.and_false] at hst
      rw [hp, if_neg (by decide)] at hq
      exact .waiting hs hb he hst (.inl (by rw [(hstate _).1, hq]; simp [hs])) (by rw [(hstate _).2, hq]; simp)
    | true =>
      rw [hp, Bool.and_true] at hst
      rw [hp, if_pos rfl] at hq
      have hm := hm { setPodReference ts s.regs with state := .syncSearch } (by simp) (by simp)
      cases hb' : decide (s.Leading lvl) && decide (s.Boundary ts) with
      | true =>
        rw [syncEval_boundary (hm.trans hb')] at hq
        have hlb : s.Leading lvl ∧ s.Boundary ts := by
          rw [Bool.and_eq_true] at hb'
          exact ⟨of_decide_eq_true hb'.1, of_decide_eq_true hb'.2⟩
        exact .starting (.inl ⟨hs, hlb.2.1⟩) hb he (hst.trans hb') hlb.1 (by rw [(hstate _).1, hq])
          (by rw [(hstate _).2, hq])
      | false =>
        rw [syncEval_other (hm.trans hb')] at hq
        exact .waiting hs hb he (hst.trans hb') (.inr (by rw [(hstate _).1, hq])) (by rw [(hstate _).2, hq]; simp)
  · have hstart := startsFrame_edge (lvl := lvl) ha (by rw [hs]; decide)
    have hm : minuteBoundary s.cfg ts (isLead s.cfg lvl) s.regs = startsFrame (.edge ts lvl) s := by
      rw [hstart, minuteBoundary_eq, isLead_eq]
    have he : framingError (.edge ts lvl) s = false := by simp [framingError, hs]
    cases hst : startsFrame (.edge ts lvl) s with
    | true =>
      have hl : s.Leading lvl := by
        by_contra hn
        rw [hst] at hstart
        simp [hn] at hstart
      rw [syncEval_boundary (hm.trans hst)] at hq
      exact .starting (.inr hs) (nobit (by rw [hs]; decide)) he hst hl (by rw [(hstate _).1, hq]) (by rw [(hstate _).2, hq])
    | false =>
      rw [syncEval_other (hm.trans hst)] at hq
      exact .searching hs (nobit (by rw [hs]; decide)) he hst (by rw [(hstate _).1, hq, hs]) (by rw [(hstate _).2, hq])
  · exact resyncs _ (.inl hs) (by simp [pushedBit, hl]) (by simp [framingError, hacc, hs, hl]) hq
  · exact resyncs _ (.inl hs) (by simp [pushedBit, hc]) (by simp [framingError, hacc, hs, hc]) hq
  · have hnl : ¬s.Leading lvl := by simpa [isLead_eq] using hl
    have hb : pushedBit (.edge ts lvl) s = some b := by simp [pushedBit, hacc, hs, hl, hc]
    have he : framingError (.edge ts lvl) s = false := by simp [framingError, hs, hl, hc]
    have hst : startsFrame (.edge ts lvl) s = false := by
      rw [startsFrame_edge ha (by rw [hs]; decide)]; simp [hnl]
    rw [receiveBit_of_lt hlt] at hq
    have hq := (Except.ok.inj hq).symm
    split at hq
    · next h58 =>
      refine .completing b hs hb he hst hnl h58 (by rw [(hstate _).1, hq]) ?_
      rw [(hstate _).2, hq, ← BitVec.toNat_inj]
      simp [h58]
    · next h58 =>
      exact .pushing b hs hb he hst hnl (by omega) (by rw [(hstate _).1, hq]) (by
        rw [(hstate _).2, hq]; exact count_succ_toNat hlt)
  · exact resyncs _ (.inr hs) (nobit (by rw [hs]; decide)) (by simp [framingError, hacc, hs, hl]) hq
  · have hle : s.Leading lvl := by simpa [isLead_eq] using hl
    have hnb : ¬s.Boundary ts := fun hb => by
      have := hb.2.1
      unfold interval at hi
      omega
    refine .ticking hs (nobit (by rw [hs]; decide)) ?_ ?_ hle (by rw [(hstate _).1, hq]) (by rw [(hstate _).2, hq])
    · simp [framingError, hs, hl, hi]
    · rw [startsFrame_edge ha (by rw [hs]; decide)]; simp [hnb]
  · exact resyncs _ (.inr hs) (nobit (by rw [hs]; decide)) (by simp [framingError, hacc, hs, hi]) hq
  · exact resyncs _ (.inr hs) (nobit (by rw [hs]; decide)) (by simp [framingError, hacc, hs, hi]) hq

end Sys2Proof.Machine
end

