-- ==== Sys2Proof/Laws/PerInstr.lean ====
section
/-! SUPPORT. A statement about every operation as syntax, one lemma per constructor: where the fixed bits of its word stand
(spec 30_encoding.md R70, R71, R74 and R75). -/

namespace Sys2Proof.Laws.FixedBits

/-- The field `OP` holds the operation's code, the reserved bits are 0, and only an `EDGE` has an operand bit. -/
def Statement (i : Instr) : Prop :=
  opField (encode i) = opCode i ∧ reservedField (encode i) = 0 ∧
    (∀ k, 2 ≤ k → (encode i).getLsbD k = true → ∃ ts lvl, i = .edge ts lvl)

/-- A word that holds nothing but its code has no operand bit. -/
theorem no_operand_bit (op : BitVec 2) (k : Nat) (hk : 2 ≤ k) : (0#38 ++ op : BitVec 40).getLsbD k = false := by
  rw [BitVec.getLsbD_append]
  simp [show ¬k < 2 by omega]

theorem nop : Statement .nop :=
  ⟨by decide, by decide, fun k hk h => absurd h (by rw [encode, no_operand_bit _ k hk]; simp)⟩

theorem edge (ts : Ts) (lvl : Bool) : Statement (.edge ts lvl) := by
  refine ⟨?_, ?_, fun _ _ _ => ⟨ts, lvl, rfl⟩⟩
  · apply BitVec.eq_of_getLsbD_eq
    intro k hk
    simp only [opField, BitVec.getLsbD_extractLsb, Nat.zero_add, Machine.getLsbD_encode_edge, opCode]
    simp [hk]
  · apply BitVec.eq_of_getLsbD_eq
    intro k hk
    simp only [reservedField, BitVec.getLsbD_extractLsb, Machine.getLsbD_encode_edge]
    simp [show ¬3 + k < 2 by omega, show ¬3 + k = 2 by omega, show 3 + k < 8 by omega]

theorem take : Statement .take :=
  ⟨by decide, by decide, fun k hk h => absurd h (by rw [encode, no_operand_bit _ k hk]; simp)⟩

theorem reset : Statement .reset :=
  ⟨by decide, by decide, fun k hk h => absurd h (by rw [encode, no_operand_bit _ k hk]; simp)⟩

end Sys2Proof.Laws.FixedBits
end

