-- ==== Sys2Proof/Laws/Response.lean ====
section
/-! SUPPORT. The bits of the response word. -/

namespace Sys2Proof.Machine

/-- Every bit of the response word (30_encoding.md R78). -/
theorem responseWord_getLsbD (r : Regs) (k : Nat) : (responseWord r).getLsbD k =
    if k < 1 then r.full
    else if k < 2 then r.overrun
    else if k < 4 then false
    else if k < 8 then r.lastOutcome.code.getLsbD (k - 4)
    else if k < 15 then r.rMinute.getLsbD (k - 8)
    else if k < 16 then false
    else if k < 22 then r.rHour.getLsbD (k - 16)
    else if k < 24 then false
    else if k < 30 then r.rDay.getLsbD (k - 24)
    else if k < 32 then false
    else if k < 35 then r.rDow.getLsbD (k - 32)
    else if k < 40 then false
    else if k < 45 then r.rMonth.getLsbD (k - 40)
    else if k < 48 then false
    else r.rYear.getLsbD (k - 48) := by
  have go : ∀ (a b n : Nat) {x y z : Bool}, (¬k < a → (k - a < b ↔ k < n)) → ¬k < a → (¬k < n → y = z) →
      (if k - a < b then x else y) = if k < n then x else z := by
    intro a b n x y z h ha hy
    by_cases hn : k < n
    · rw [if_pos hn, if_pos ((h ha).2 hn)]
    · rw [if_neg hn, if_neg (fun e => hn ((h ha).1 e)), hy hn]
  unfold responseWord
  rw [BitVec.getLsbD_setWidth]
  iterate 14 rw [BitVec.getLsbD_append]
  simp only [BitVec.getLsbD_ofBool, BitVec.getLsbD_zero, Nat.sub_sub, Nat.reduceAdd]
  by_cases hk : k < 64
  · rw [decide_eq_true hk, Bool.true_and]
    by_cases h0 : k < 1
    · rw [if_pos h0, if_pos h0, show k = 0 by omega]; rfl
    rw [if_neg h0, if_neg h0]
    by_cases h1 : k < 2
    · rw [if_pos (show k - 1 < 1 by omega), if_pos h1, show k = 1 by omega]; rfl
    rw [if_neg (show ¬k - 1 < 1 by omega), if_neg h1]
    iterate 12 refine go _ _ _ (by omega) ‹_› fun _ => ?_
    rfl
  · have : r.rYear.getLsbD (k - 48) = false := BitVec.getLsbD_of_ge _ _ (by omega)
    rw [decide_eq_false hk, Bool.false_and]
    iterate 14 rw [if_neg (by omega)]
    exact this.symm

end Sys2Proof.Machine
end

