-- ==== Sys2Proof/Laws/Runs.lean ====
section
/-! SUPPORT. Runs: of steps, of operations, and of the words that the agents deliver. -/

namespace Sys2Proof.Machine

/-- One more step of a run. -/
theorem run_succ_next {k : Nat} {s u : State} (h : step s = .next u) :
    Sys2Proof.core.run (k + 1) s = Sys2Proof.core.run k u := by
  have h : Sys2Proof.core.step s = .next u := h
  simp only [Host.Core.run, h]

/-- A run of one step or more that answers begins with a step that answers. -/
theorem run_succ_cases {k : Nat} {s t : State} (h : Sys2Proof.core.run (k + 1) s = .next t) :
    ∃ u, step s = .next u ∧ Sys2Proof.core.run k u = .next t := by
  cases hs : step s with
  | next u => exact ⟨u, rfl, (run_succ_next hs).symm.trans h⟩
  | fault e =>
    have hs : Sys2Proof.core.step s = .fault e := hs
    simp only [Host.Core.run, hs] at h
    cases h
  | refused e =>
    have hs : Sys2Proof.core.step s = .refused e := hs
    simp only [Host.Core.run, hs] at h
    cases h

/-- A sequence of operations that answers begins with an operation that answers. -/
theorem execAll_cons_cases {i : Instr} {is : List Instr} {s u : State} (h : execAll (i :: is) s = .next u) :
    ∃ t, exec i s = .next t ∧ execAll is t = .next u := by
  unfold execAll at h
  split at h
  · exact ⟨_, ‹_›, h⟩
  · cases h
  · cases h

/-- The count of a sequence whose first operation answers. -/
theorem countAlong_cons {p : Instr → State → Bool} {i : Instr} {is : List Instr} {s t : State} (h : exec i s = .next t) :
    countAlong p (i :: is) s = (p i s).toNat + countAlong p is t := by
  simp [countAlong, h]

/-- The delivered words depend on the queues alone. -/
theorem deliveredWords_congr (turns : List Agent) {s t : State} (h : ∀ a, queueOf t a = queueOf s a) :
    deliveredWords turns t = deliveredWords turns s := by
  induction turns generalizing s t with
  | nil => rfl
  | cons a turns ih =>
    unfold deliveredWords
    rw [h a]
    split
    · rw [ih h]
    · refine congrArg _ (ih fun b => ?_)
      have := h b
      cases a <;> cases b <;> simp_all [queueOf, setQueue]

/-- What is fetched is the next delivered word, and fetching it uses up that turn and that word alone. -/
theorem fetch_delivered {s s1 : State} {w : EventWord} (h : fetch s = some (w, s1)) :
    ∃ a turns, s.schedule = a :: turns ∧ s1.schedule = turns ∧ s1.issuer = a ∧ s1.regs = s.regs ∧ s1.cfg = s.cfg ∧
      s1.responses = s.responses ∧ (∀ b, queueOf s1 b = (queueOf s b).drop (if a = b then 1 else 0)) ∧
      ∀ l, deliveredWords (a :: l) s = w :: deliveredWords l s1 := by
  obtain ⟨a, turns, h1, ⟨hq, rfl, rfl⟩ | ⟨rest, hq, rfl⟩⟩ := fetch_some h
  all_goals
    refine ⟨a, turns, h1, rfl, rfl, by cases a <;> rfl, by cases a <;> rfl, by cases a <;> rfl, fun b => ?_, fun l => ?_⟩
    · cases a <;> cases b <;> simp_all [queueOf, serve, setQueue]
    · simp only [deliveredWords, hq]
      refine congrArg _ (deliveredWords_congr l fun b => ?_)
      cases a <;> cases b <;> simp_all [queueOf, serve, setQueue]

/-- Nothing is fetched only when no turn is left. -/
theorem fetch_none {s : State} (h : fetch s = none) : s.schedule = [] := by
  unfold fetch at h
  split at h
  · assumption
  · split at h <;> cases h

end Sys2Proof.Machine
end

