-- ==== Sys2Proof/Tests/Slice0.lean ====
section
/-! SUPPORT. Small tests. Expected values are those of spec 95_test_vectors.md (the vector's id is named) or follow by hand
from the rule named; the second part holds one witness for every statement that has hypotheses. -/

open Sys2Proof Sys2Proof.Machine

namespace Sys2Proof.Tests

/-! ### Helpers -/

/-- The next state of an outcome, if it is one. -/
def after (o : Host.Outcome State Fault Refusal) : Option State :=
  match o with
  | .next t => some t
  | .fault _ => none
  | .refused _ => none

theorem after_some {o : Host.Outcome State Fault Refusal} {t : State} (h : after o = some t) : o = .next t := by
  cases o with
  | next u => exact congrArg Host.Outcome.next (Option.some.inj h)
  | fault e => cases h
  | refused e => cases h

/-- The registers after an operation. -/
def regsAfter (i : Instr) (s : State) : Option Regs := (after (exec i s)).map State.regs

/-- A state under EX1 past the power-on delay, as the rows of 95_test_vectors.md 3.1 give them. -/
def at' (state : DecoderState) (edge lead count : Nat) (frame : Frame) : State :=
  { State.reset with
    regs := { Regs.reset with
      state := state, lastEdgeTs := BitVec.ofNat 32 edge, lastEdgeValid := true,
      lastLeadTs := BitVec.ofNat 32 lead, lastLeadValid := true, count := BitVec.ofNat 6 count, frame := frame } }

/-- In `PowerOnDelay` with the reference at 100. -/
def waiting (edge : Nat) : State :=
  { State.reset with
    regs := { Regs.reset with
      podRefTs := 100, podRefValid := true, lastEdgeTs := BitVec.ofNat 32 edge, lastEdgeValid := true } }

/-- Frame F1 without its bit 58. -/
def f1 : Frame := 0x09A2D1444340000

/-- One bit from the end of a frame (vector E30 and table 3.2). -/
def last (frame : Frame) : State := at' .receivingOne 2364 2364 58 frame

/-- The trailing edge that makes bit 58 a 1, and the one that makes it a 0. -/
def one58 : Instr := .edge 2564 false
def zero58 : Instr := .edge 2464 false

/-! ### Well-formedness -/

theorem test_ex1_wellFormed : Config.ex1.WellFormed := by decide
theorem test_illFormed_width_zero : ¬{ Config.ex1 with tsWidth := 0 }.WellFormed := by decide
theorem test_illFormed_width_33 : ¬{ Config.ex1 with tsWidth := 33 }.WellFormed := by decide
theorem test_illFormed_debounce : ¬{ Config.ex1 with debounceMin := 41 }.WellFormed := by decide
theorem test_illFormed_short : ¬{ Config.ex1 with shortMin := 141 }.WellFormed := by decide
theorem test_illFormed_windows_meet : ¬{ Config.ex1 with longMin := 140 }.WellFormed := by decide
theorem test_illFormed_long : ¬{ Config.ex1 with longMin := 251 }.WellFormed := by decide
theorem test_illFormed_long_sync : ¬{ Config.ex1 with syncMin := 250 }.WellFormed := by decide
theorem test_illFormed_sync : ¬{ Config.ex1 with syncMin := 2201 }.WellFormed := by decide
theorem test_illFormed_sync_width : ¬{ Config.ex1 with syncMax := 65536 }.WellFormed := by decide
theorem test_illFormed_delay : ¬{ Config.ex1 with powerOnDelay := 65536 }.WellFormed := by decide
theorem test_illFormed_timestamp : ¬(Instr.edge 65536 true).WellFormed Config.ex1 := by decide

/-- Such a configuration is refused (vector H11). -/
theorem test_illFormed_refused :
    ∃ s : State, s.cfg = { Config.ex1 with shortMax := 160 } ∧ step s = .refused .illFormedConfiguration :=
  ⟨{ State.reset with cfg := { Config.ex1 with shortMax := 160 } }, rfl, rfl⟩

/-! ### Decoding: words written out bit by bit from 30_encoding.md R70 -/

/-- `EDGE 10100, 1` (95_test_vectors.md 2): TS = 0x2774, five reserved zeros, LVL, OP = 01. -/
theorem test_decode_edge :
    decode Config.ex1 (0b0000000000000000001001110111010000000101#40) = .ok (.edge 10100 true) := rfl
theorem test_decode_edge_low : decode Config.ex1 (0b0000000000000000111111111111111100000001#40) =
    .ok (.edge 65535 false) := rfl
theorem test_decode_nop : decode Config.ex1 (0b0000000000000000000000000000000000000000#40) = .ok .nop := rfl
theorem test_decode_take : decode Config.ex1 (0b0000000000000000000000000000000000000010#40) = .ok .take := rfl
theorem test_decode_reset : decode Config.ex1 (0b0000000000000000000000000000000000000011#40) = .ok .reset := rfl
/-- Vectors H08 to H10 and their like: one word for each reason. -/
theorem test_decode_reserved : decode Config.ex1 (0b0000000000000000000000000000000010000101#40) =
    .error .reservedBitsNonzero := rfl
theorem test_decode_wide : decode Config.ex1 (0b0000000000000001000000000000000000000101#40) =
    .error .timestampWiderThanN := rfl
theorem test_decode_operand : decode Config.ex1 (0b1000000000000000000000000000000000000011#40) =
    .error .operandBitsNonzero := rfl
theorem test_encode_edge : encode (.edge 65535 true) = 0x0000FFFF05#40 := rfl
theorem test_table_edge : decodeTableWord 40 0x0000000005 = some (.edge 0 true) := rfl

/-! ### One step of each operation -/

/-- The first step after reset runs the placed word: vector E01. -/
theorem test_step_first_edge :
    (after (step (State.reset.withFetchWord 40 0x0000000005))).map State.regs =
      some { Regs.reset with podRefValid := true, lastEdgeValid := true } := by decide
theorem test_step_take : (after (step (State.reset.withFetchWord 40 2))).map State.responses =
    some [⟨.consumer, 0⟩] := by decide
/-- R175, worked example. -/
theorem test_step_reset : regsAfter .reset (at' .receivingZero 30100 30000 30 0x40) = some Regs.reset := by decide
theorem test_step_nop : regsAfter .nop (last f1) = some (last f1).regs := by decide
/-- Vector F18: a commit over an untaken result. -/
theorem test_overrun :
    (regsAfter one58 { last f1 with regs := { (last f1).regs with full := true } }).map
      (fun r => (r.full, r.overrun, r.rYear)) = some (true, true, 26) := by decide

/-! ### The assembler (30_encoding.md R86, R87) -/

theorem test_assemble :
    assemble Config.ex1 {} "TAKE ; take it\nBIT 65500, 0\n\nEDGE 0x10, 0".toList =
      some [.take, .edge 65500 true, .edge 64 false, .edge 16 false] := rfl
theorem test_assemble_range : assemble Config.ex1 {} "EDGE 65536, 0".toList = none := rfl

/-- Log 12: a frame operand must be a number; `F1` as a name is no number, its value is. -/
theorem test_assemble_frame_name : assemble Config.ex1 {} "FRAMEBITS 10100, F1, 0, 9".toList = none := rfl
theorem test_assemble_frame_value :
    assemble Config.ex1 {} "FRAMEBITS 10100, 0x49A2D1444340000, 18, 18".toList =
      some [.edge 10100 true, .edge 10300 false] := rfl

/-! ### Witnesses: hypotheses that are met -/

/-- The trailing edge of bit 58 of F1: committed. -/
def committed : State :=
  { last f1 with regs := { (last f1).regs with
      state := .syncSearch, lastEdgeTs := 2564, frame := 0x49A2D1444340000, count := 59, rMinute := 21, rHour := 22,
      rDay := 11, rDow := 3, rMonth := 11, rYear := 26, full := true, lastOutcome := .committed } }

/-- The same with bit 58 wrong: rejected. -/
def rejected : State :=
  { last f1 with regs := { (last f1).regs with
      state := .syncSearch, lastEdgeTs := 2464, count := 59, lastOutcome := .parityDateFail } }

theorem test_commits_e30 : exec one58 (last f1) = .next committed := after_some (by decide)
/-- R172, worked example: the word returned after the commit of F1. -/
theorem test_take_word : responseWord committed.regs = 0x001A0B030B161511#64 := by decide
theorem test_rejects_f7 : exec zero58 (last f1) = .next rejected := after_some (by decide)

theorem test_inv_last : (last f1).Inv := by constructor <;> decide
theorem test_inv_waiting : (waiting 100).Inv := by constructor <;> decide
theorem test_inv_receivingZero : (at' .receivingZero 30100 30000 7 0x40).Inv := by constructor <;> decide

/-- A scheduled word. -/
def issued (w : EventWord) : State :=
  { State.reset with edgeQueue := [w], schedule := [.edgeSource, .consumer] }

theorem test_witness_DecodeReadsEncodedWord : (Instr.edge 65535 true).WellFormed Config.ex1 := by decide
theorem test_witness_DecodedWordIsTheEncoding : decode Config.ex1 0x0000FFFF05#40 = .ok (.edge 65535 true) := rfl
theorem test_witness_EdgeOperandsComeFromTheirFields :
    decode { Config.ex1 with tsWidth := 32 } 0xFFFFFFFF05#40 = .ok (.edge 4294967295 true) := rfl
theorem test_witness_StepRunsTheDecodedOperation :
    (issued 0x6405#40).cfg.WellFormed ∧ (issued 0x6405#40).schedule = [.edgeSource, .consumer] ∧
    queueOf (issued 0x6405#40) .edgeSource = [0x6405#40] ∧ decode (issued 0x6405#40).cfg 0x6405#40 = .ok (.edge 100 true) :=
  ⟨by decide, rfl, rfl, rfl⟩
theorem test_witness_IllegalWordEndsTheRun :
    (issued 4).cfg.WellFormed ∧ (issued 4).schedule = [.edgeSource, .consumer] ∧
    queueOf (issued 4) .edgeSource = [4] ∧ decode (issued 4).cfg 4 = .error .operandBitsNonzero :=
  ⟨by decide, rfl, rfl, rfl⟩
theorem test_witness_NothingToDeliver_no_turn : State.reset.cfg.WellFormed ∧ State.reset.schedule = [] :=
  ⟨by decide, rfl⟩
theorem test_witness_NothingToDeliver_no_word :
    { State.reset with schedule := [.consumer] }.cfg.WellFormed ∧
    queueOf { State.reset with schedule := [.consumer] } .consumer = [] := ⟨by decide, rfl⟩
/-- A `TAKE` of the consumer, then two turns of the edge source, which has one word. -/
def shared : State :=
  { State.reset with
    edgeQueue := [0x6405#40], consumerQueue := [2], schedule := [.consumer, .edgeSource, .edgeSource] }

theorem test_witness_AgentsAreServedInTheirOwnOrder :
    ∃ t, Sys2Proof.core.run 3 shared = .next t ∧ t.schedule = [] ∧ t.regs.lastEdgeTs = 100 ∧
      t.responses = [⟨.consumer, 0⟩] := ⟨_, rfl, rfl, rfl, by decide⟩
theorem test_witness_DeliveredOperationsArePerformed :
    ∃ u, shared.cfg.WellFormed ∧
      (deliveredWords (shared.schedule.take 3) shared).map (decode shared.cfg) =
        [Instr.take, .edge 100 true, .nop].map .ok ∧
      execAll [.take, .edge 100 true, .nop] shared = .next u := ⟨_, by decide, rfl, rfl⟩
theorem test_witness_OperationsLeave_edge : ∃ t, exec one58 (last f1) = .next t := ⟨_, test_commits_e30⟩
theorem test_witness_OperationsLeave_take : ∃ t, exec .take (last f1) = .next t := ⟨_, rfl⟩

theorem test_witness_SecondTakeFindsNothing :
    ∃ u v, exec .take (last f1) = .next u ∧ execAll [.nop, .edge 2370 true] u = .next v ∧
      countAlong commitsFrame [.nop, .edge 2370 true] u = 0 ∧ Instr.reset ∉ [Instr.nop, .edge 2370 true] ∧
      countAlong framingError [.nop, .edge 2370 true] u = 0 ∧
      countAlong completesFrame [.nop, .edge 2370 true] u = 0 :=
  ⟨_, _, rfl, rfl, by decide, by decide, by decide, by decide⟩
theorem test_witness_FullResponsesNeverOutnumberCommits :
    ∃ t, (last f1).regs.full = false ∧ execAll [one58, .take] (last f1) = .next t ∧
      countAlong takesFull [one58, .take] (last f1) = 1 := ⟨_, rfl, rfl, by decide⟩
theorem test_witness_FullAndOverrun_one :
    ∃ t, (last f1).regs.full = false ∧ (last f1).regs.overrun = false ∧ Instr.take ∉ [one58] ∧ Instr.reset ∉ [one58] ∧
      execAll [one58] (last f1) = .next t ∧ countAlong commitsFrame [one58] (last f1) = 1 :=
  ⟨_, rfl, rfl, by decide, by decide, rfl, by decide⟩
theorem test_witness_FullAndOverrun_none :
    ∃ t, execAll [zero58] (last f1) = .next t ∧ countAlong commitsFrame [zero58] (last f1) = 0 := ⟨_, rfl, by decide⟩
theorem test_witness_FrameReady : ∃ t, exec one58 (last f1) = .next t ∧ commitsFrame one58 (last f1) = true :=
  ⟨_, test_commits_e30, by decide⟩
theorem test_witness_CommittedResultStaysUntilTaken :
    ∃ u, commitsFrame one58 (last f1) = true ∧ exec one58 (last f1) = .next committed ∧
      Instr.take ∉ [Instr.edge 3364 true] ∧ Instr.reset ∉ [Instr.edge 3364 true] ∧
      execAll [.edge 3364 true] committed = .next u ∧ countAlong commitsFrame [.edge 3364 true] committed = 0 :=
  ⟨_, by decide, test_commits_e30, by decide, by decide, rfl, by decide⟩
theorem test_witness_TakeBeforeOrAfterTheCommit :
    commitsFrame one58 (last f1) = true ∧ exec one58 (last f1) = .next committed := ⟨by decide, test_commits_e30⟩

theorem test_witness_SubN : Config.ex1.tsWidth ≤ 32 ∧ subN Config.ex1 5 65530 = 11 := by decide
theorem test_witness_ElapsedTime :
    Config.ex1.tsWidth ≤ 32 ∧ 65000 ≤ 130535 ∧ 130535 - 65000 < 2 ^ Config.ex1.tsWidth := by decide

/-- Vectors E02 and E03: 19 is ignored, 20 is not. -/
theorem test_witness_Debounce_ignored :
    (at' .syncSearch 1000 0 0 0).regs.lastEdgeValid = true ∧
    subN Config.ex1 1019 1000 < Config.ex1.debounceMin ∧ exec (.edge 1019 false) (at' .syncSearch 1000 0 0 0) =
      .next (at' .syncSearch 1000 0 0 0) := ⟨rfl, by decide, rfl⟩
theorem test_witness_Debounce_inv : (at' .syncSearch 1000 0 0 0).Inv := by constructor <;> decide
theorem test_witness_Debounce_accepted : Config.ex1.debounceMin ≤ subN Config.ex1 1020 1000 ∧
    (at' .syncSearch 1000 0 0 0).Accepts 1020 := by decide
theorem test_witness_Debounce_first : State.reset.regs.lastEdgeValid = false ∧ State.reset.Accepts 0 := by decide
theorem test_witness_AcceptedEdges_waiting : (waiting 100).Accepts 3099 ∧ (waiting 100).Accepts 3100 := by decide

/-- Vectors E05 to E07: the delay not passed at 2999 and passed at 3000. -/
theorem test_witness_PowerOnDelayEdge :
    (waiting 100).regs.state = .powerOnDelay ∧ (waiting 100).regs.lastLeadValid = false ∧ (waiting 100).Accepts 3099 ∧
    (regsAfter (.edge 3099 false) (waiting 100)).map Regs.state = some .powerOnDelay ∧
    (regsAfter (.edge 3100 true) (waiting 100)).map (fun r => (r.state, r.lastLeadTs)) = some (.syncSearch, 3100) ∧
    (regsAfter (.edge 3100 false) (waiting 100)).map (fun r => (r.state, r.lastLeadValid)) =
      some (.syncSearch, false) := by decide
/-- Vectors E10 and E12 to E15: both bounds of the sync window. -/
theorem test_witness_SyncSearchEdge :
    (at' .syncSearch 8200 8100 0 0).regs.state = .syncSearch ∧ (at' .syncSearch 8200 8100 0 0).Accepts 10000 ∧
    ¬(at' .syncSearch 8200 8100 0 0).Boundary 9999 ∧ (at' .syncSearch 8200 8100 0 0).Boundary 10000 ∧
    (at' .syncSearch 8200 8100 0 0).Boundary 10300 ∧ ¬(at' .syncSearch 8200 8100 0 0).Boundary 10301 ∧
    (regsAfter (.edge 10000 true) (at' .syncSearch 8200 8100 0 0)).map Regs.state = some .receivingOne ∧
    (regsAfter (.edge 9999 true) (at' .syncSearch 8200 8100 0 0)).map Regs.state = some .syncSearch ∧
    (regsAfter (.edge 10000 false) (at' .syncSearch 8200 8100 0 0)).map Regs.state = some .syncSearch := by decide

/-- The pre-state of vectors E18 to E28. -/
def inPulse : State := at' .receivingOne 20000 20000 5 0x16

/-- Vectors E18 to E28. -/
theorem test_witness_ReceivingOneEdge :
    inPulse.cfg.WellFormed ∧ inPulse.regs.state = .receivingOne ∧ inPulse.regs.count.toNat ≤ 58 ∧
    inPulse.Accepts 20040 := by decide
theorem test_receivingOne_windows :
    [20039, 20040, 20140, 20141, 20149, 20150, 20250, 20251].map (fun t =>
      (regsAfter (.edge (BitVec.ofNat 32 t) false) inPulse).map (fun r => (r.frame.toNat, r.count.toNat))) =
    [some (0, 0), some (0x16, 6), some (0x16, 6), some (0, 0), some (0, 0), some (0x36, 6), some (0x36, 6),
      some (0, 0)] := by decide
theorem test_receivingOne_leading :
    (regsAfter (.edge 21000 true) inPulse).map (fun r => (r.state, r.lastOutcome)) = some (.syncSearch, .levelFail) ∧
    (regsAfter (.edge 22000 true) inPulse).map (fun r => (r.state, r.lastOutcome)) =
      some (.receivingOne, .levelFail) := by decide

/-- The pre-state of vectors E31 to E38. -/
def inGap : State := at' .receivingZero 30100 30000 7 0x40

/-- Vectors E31 to E36. -/
theorem test_witness_ReceivingZeroEdge :
    inGap.regs.state = .receivingZero ∧ inGap.regs.lastLeadValid = true ∧ inGap.Accepts 31899 := by decide
theorem test_receivingZero_intervals :
    [31899, 31900, 32200, 32201].map (fun t =>
      (regsAfter (.edge (BitVec.ofNat 32 t) true) inGap).map (fun r => (r.state, r.lastOutcome, r.count.toNat))) =
    [some (.receivingOne, .none, 7), some (.receivingOne, .shortFrame, 0), some (.receivingOne, .shortFrame, 0),
      some (.syncSearch, .gapFail, 0)] := by decide
theorem test_receivingZero_trailing :
    (regsAfter (.edge 30500 false) inGap).map (fun r => (r.state, r.lastOutcome)) =
      some (.syncSearch, .levelFail) := by decide
theorem test_witness_FramingErrors :
    framingError (.edge 20039 false) inPulse = true ∧ framingError (.edge 22000 true) inPulse = true ∧
    framingError (.edge 31900 true) inGap = true ∧ framingError (.edge 32201 true) inGap = true ∧
    framingError (.edge 30500 false) inGap = true := by decide
theorem test_witness_AcceptedBit : inPulse.Inv ∧ pushedBit (.edge 20150 false) inPulse = some true ∧
    pushedBit (.edge 20040 false) inPulse = some false := ⟨by constructor <;> decide, by decide, by decide⟩
theorem test_witness_PowerOnReference_first :
    ∃ t, exec (.edge 100 true) State.reset = .next t ∧ State.reset.regs.state = .powerOnDelay ∧
      State.reset.regs.podRefValid = false ∧ acceptsEdge (.edge 100 true) State.reset = true ∧ t.regs.podRefTs = 100 :=
  ⟨_, rfl, rfl, rfl, by decide, rfl⟩
theorem test_witness_PowerOnReference_later : ∃ t, exec (.edge 3099 true) (waiting 100) = .next t ∧
    t.regs.podRefTs = 100 := ⟨_, rfl, rfl⟩
theorem test_witness_ReceivingZeroFollows :
    ∃ t, inPulse.regs.state ≠ .receivingZero ∧ execAll [.edge 20040 false] inPulse = .next t ∧
      t.regs.state = .receivingZero := ⟨_, by decide, rfl, rfl⟩
/-- The pulse of second 59 at 3364, the next minute at 5364. -/
theorem test_witness_LeapSecond :
    committed.cfg.WellFormed ∧ committed.regs.state = .syncSearch ∧ committed.Leading true ∧ committed.Accepts 3364 ∧
    subN committed.cfg 3364 committed.regs.lastLeadTs < committed.cfg.syncMin ∧
    committed.cfg.debounceMin ≤ subN committed.cfg 3464 3364 ∧
    committed.cfg.debounceMin ≤ subN committed.cfg 5364 3464 ∧
    committed.cfg.syncMin ≤ subN committed.cfg 5364 3364 ∧ subN committed.cfg 5364 3364 ≤ committed.cfg.syncMax := by
  decide
theorem test_witness_Silence : ∀ i ∈ [Instr.nop, .take, .nop], i = .nop ∨ i = .take := by decide

/-- Table 3.2: one frame for each outcome of the decode; F14's bits with the range check. -/
theorem test_witness_FirstFailedCheck :
    (last f1).regs.count = 58 ∧ pushedBit one58 (last f1) = some true ∧ pushedBit zero58 (last f1) = some false := by
  decide
theorem test_table_3_2 :
    [f1, f1 ^^^ 1#59 <<< 20, f1 ^^^ 1#59, f1 ^^^ 1#59 <<< 22, f1 ^^^ 1#59 <<< 28, f1 ^^^ 1#59 <<< 30,
      f1 ^^^ 1#59 <<< 42, f1 ^^^ 1#59 <<< 5].map (fun f => (regsAfter one58 (last f)).map Regs.lastOutcome) =
    [some .committed, some .markerFail, some .markerFail, some .parityMinuteFail, some .parityMinuteFail,
      some .parityHourFail, some .parityDateFail, some .committed] := by decide
theorem test_range_check :
    (regsAfter zero58 { last (1#59 <<< 20) with cfg := { Config.ex1 with rangeCheck := true } }).map Regs.lastOutcome =
      some .rangeFail ∧ (regsAfter zero58 (last (1#59 <<< 20))).map Regs.lastOutcome = some .committed := by decide
theorem test_witness_CommitWrites : failedCheck (last f1).cfg (setFrameBit (last f1).regs.frame 58 true) = none := by
  decide
theorem test_witness_RejectedFrame :
    ∃ u, failedCheck (last f1).cfg (setFrameBit (last f1).regs.frame 58 false) = some .parityDateFail ∧
      exec zero58 (last f1) = .next rejected ∧ Instr.reset ∉ [Instr.edge 3364 true] ∧
      countAlong startsFrame [.edge 3364 true] rejected = 0 ∧ execAll [.edge 3364 true] rejected = .next u :=
  ⟨_, by decide, test_rejects_f7, by decide, by decide, rfl⟩
theorem test_witness_OnlyFrameEvents :
    ∃ t, exec (.edge 31000 true) inGap = .next t ∧ commitsFrame (.edge 31000 true) inGap = false ∧
      completesFrame (.edge 31000 true) inGap = false ∧ framingError (.edge 31000 true) inGap = false :=
  ⟨_, rfl, by decide, by decide, by decide⟩
/-- A flip of each bound of each group of R150 is met (bit 58 by the other trailing edge). -/
theorem test_witness_SingleBitErrors :
    ∀ k ∈ [0, 1, 19, 20, 21, 28, 29, 35, 36, 57],
      (last (f1 ^^^ 1#59 <<< k)).cfg = (last f1).cfg ∧ (last (f1 ^^^ 1#59 <<< k)).regs.count = 58 ∧
      pushedBit one58 (last (f1 ^^^ 1#59 <<< k)) = some true ∧
      setFrameBit (f1 ^^^ 1#59 <<< k) 58 true = setFrameBit f1 58 true ^^^ (1#59 <<< k) ∧
      (after (exec one58 (last (f1 ^^^ 1#59 <<< k)))).isSome = true := by decide
theorem test_witness_SingleBitErrors_58 :
    setFrameBit f1 58 false = setFrameBit f1 58 true ^^^ (1#59 <<< 58) ∧ pushedBit zero58 (last f1) = some false := by
  decide
theorem test_witness_FrameBitsOneToNineteen :
    SameButUnreadBits (last f1) (last (f1 ^^^ 1#59 <<< 5)) ∧ ∃ u, execAll [one58] (last f1) = .next u := by
  refine ⟨⟨rfl, fun k hk => ?_⟩, _, rfl⟩
  show f1.getLsbD k = (f1 ^^^ 1#59 <<< 5).getLsbD k
  rcases hk with rfl | hk
  · rfl
  · rw [BitVec.getLsbD_xor, BitVec.getLsbD_shiftLeft, BitVec.getLsbD_one]
    simp [show ¬k < 5 by omega, show k - 5 ≠ 0 by omega]

theorem test_witness_RegistersWellFormedAtReset :
    { State.reset with cfg := { Config.ex1 with tsWidth := 32 } }.regs = State.reset.regs := rfl
theorem test_witness_EveryStepKeeps :
    (issued 0x6405#40).Inv ∧ ∃ t, step (issued 0x6405#40) = .next t := ⟨by constructor <;> decide, _, rfl⟩
theorem test_witness_EveryLegalOperationCompletes :
    (issued 0x6405#40).Inv ∧ (issued 0x6405#40).cfg.WellFormed ∧ (issued 0x6405#40).schedule = [.edgeSource, .consumer] ∧
    queueOf (issued 0x6405#40) .edgeSource = [0x6405#40] ∧ decode (issued 0x6405#40).cfg 0x6405#40 = .ok (.edge 100 true) :=
  ⟨by constructor <;> decide, by decide, rfl, rfl, rfl⟩
theorem test_witness_OneDecodePerMinute :
    ∃ t, execAll [one58] (last f1) = .next t ∧ countAlong startsFrame [one58] (last f1) = 0 ∧
      countAlong completesFrame [one58] (last f1) = 1 := ⟨_, rfl, by decide, by decide⟩

/-- The whole frame F1, from its minute boundary on. -/
def minute : List Instr := (asmFrameBits Config.ex1 {} 10100 0x49A2D1444340000 0 58)

theorem test_witness_WholeFrame :
    let s := at' .syncSearch 8200 8100 0 0
    s.cfg.WellFormed ∧ s.regs.state = .syncSearch ∧ s.Accepts 10100 ∧ s.Boundary 10100 ∧ s.cfg.shortMin ≤ 100 ∧
    100 ≤ s.cfg.shortMax ∧ s.cfg.longMin ≤ 200 ∧ 200 ≤ s.cfg.longMax ∧ 200 + s.cfg.debounceMin ≤ 1000 ∧
    1000 < s.cfg.syncMin := by decide
set_option maxRecDepth 20000 in
/-- After the leading edge of second 0, the rest of the minute: 59 bits, one commit, no other frame start. -/
theorem test_witness_CommitNeedsFiftyNineBits :
    ∃ t, (at' .receivingOne 10100 10100 0 0).regs.state = .receivingOne ∧
      (at' .receivingOne 10100 10100 0 0).regs.count = 0 ∧
      execAll minute.tail (at' .receivingOne 10100 10100 0 0) = .next t ∧
      countAlong startsFrame minute.tail (at' .receivingOne 10100 10100 0 0) = 0 ∧
      countAlong commitsFrame minute.tail (at' .receivingOne 10100 10100 0 0) = 1 :=
  ⟨_, rfl, rfl, rfl, rfl, rfl⟩

/-- The fewest edges of R232, with `POWER_ON_DELAY` 0: a leading edge at 8100, then the minute from 10100 on; and with the
trailing edge at 8200 between them. -/
def early : State := { State.reset with cfg := { Config.ex1 with powerOnDelay := 0 } }

set_option maxRecDepth 20000 in
theorem test_witness_FirstCommitNeedsManyEdges :
    ∃ t, early.regs = State.reset.regs ∧ execAll (.edge 8100 true :: minute) early = .next t ∧
      countAlong commitsFrame (.edge 8100 true :: minute) early = 1 ∧
      countAlong acceptsEdge (.edge 8100 true :: minute) early = 119 :=
  ⟨_, rfl, rfl, rfl, rfl⟩
set_option maxRecDepth 20000 in
theorem test_witness_AlternatingEdgesNeedOneMore :
    ∃ t, execAll (.edge 8100 true :: .edge 8200 false :: minute) early = .next t ∧
      alternates none (.edge 8100 true :: .edge 8200 false :: minute) early = true ∧
      countAlong commitsFrame (.edge 8100 true :: .edge 8200 false :: minute) early = 1 ∧
      countAlong acceptsEdge (.edge 8100 true :: .edge 8200 false :: minute) early = 120 := ⟨_, rfl, rfl, rfl, rfl⟩
set_option maxRecDepth 20000 in
/-- Log 13: with the trailing edge between them narrow enough to be ignored (8110), the delivered edges still alternate, and
119 accepted edges are enough. -/
theorem test_delivered_alternation_is_not_enough :
    (Instr.edge 8100 true :: .edge 8110 false :: minute).map (fun i => match i with
      | .edge _ lvl => some lvl
      | .nop | .take | .reset => none) = (List.range 120).map (fun k => some (k % 2 == 0)) ∧
    countAlong commitsFrame (.edge 8100 true :: .edge 8110 false :: minute) early = 1 ∧
    countAlong acceptsEdge (.edge 8100 true :: .edge 8110 false :: minute) early = 119 := ⟨rfl, rfl, rfl⟩
theorem test_witness_UnreadRegisters :
    (at' .syncSearch 8200 8100 0 0).Inv ∧ (at' .syncSearch 8200 8100 59 0x49A2D1444340000).Inv ∧
    SameButHidden (at' .syncSearch 8200 8100 0 0) (at' .syncSearch 8200 8100 59 0x49A2D1444340000) ∧
    (∀ i ∈ [Instr.edge 10100 true], i.WellFormed (at' .syncSearch 8200 8100 0 0).cfg) ∧
    ∃ u, execAll [.edge 10100 true] (at' .syncSearch 8200 8100 0 0) = .next u := by
  refine ⟨by constructor <;> decide, by constructor <;> decide, ?_, fun i hi => ?_, _, rfl⟩
  · constructor
    case observable => exact ⟨⟨rfl, rfl, rfl, rfl, rfl, rfl⟩, rfl, rfl, rfl⟩
    all_goals decide
  · rw [List.mem_singleton.mp hi]
    decide

end Sys2Proof.Tests
end

section
/-! SUPPORT and proofs for spec 00_scope.md: what a step does with an ill-formed configuration and with a word that decodes,
and what the modular difference of two timestamps is. -/

namespace Sys2Proof.Machine

/-! ### One step, branch by branch -/

/-- `Config.WellFormed` as the flat list of the constraints of 00_scope.md R7. -/
theorem wellFormed_iff_constraints (c : Config) :
    c.WellFormed ↔
      1 ≤ c.tsWidth ∧ c.tsWidth ≤ 32 ∧
      c.debounceMin ≤ c.shortMin ∧ c.shortMin ≤ c.shortMax ∧
      c.shortMax < c.longMin ∧ c.longMin ≤ c.longMax ∧
      c.longMax < c.syncMin ∧ c.syncMin ≤ c.syncMax ∧ c.syncMax ≤ 2 ^ c.tsWidth - 1 ∧
      c.powerOnDelay ≤ 2 ^ c.tsWidth - 1 := by
  simp only [Config.WellFormed, and_assoc]

/-- A configuration that is not well-formed is refused before anything is fetched (00_scope.md R7). -/
theorem step_of_illFormed {s : State} (h : ¬s.cfg.WellFormed) : step s = .refused .illFormedConfiguration := if_neg h

/-- The first word of the agent whose turn it is is the one fetched (20_memory.md R53). -/
theorem fetch_of_queued {s : State} {a : Agent} {turns : List Agent} {w : EventWord} {rest : List EventWord}
    (hs : s.schedule = a :: turns) (hq : queueOf s a = w :: rest) : fetch s = some (w, serve s a turns rest) := by
  simp only [fetch, hs, hq]

/-- A fetched word that decodes is performed at the state in which its agent is served (00_scope.md R10). -/
theorem step_of_decoded {s s1 : State} {w : EventWord} {i : Instr} (hw : s.cfg.WellFormed)
    (hf : fetch s = some (w, s1)) (hd : decode s1.cfg w = .ok i) : step s = exec i s1 := by
  simp only [step, if_pos hw, hf, hd]

/-- Under a well-formed configuration no step refuses the configuration: the only refusal left is that of an illegal
word (60_exceptions.md R201). -/
theorem step_ne_illFormed {s : State} (hw : s.cfg.WellFormed) : step s ≠ .refused .illFormedConfiguration := by
  intro h
  rw [step, if_pos hw] at h
  split at h
  · cases h
  · split at h
    · cases h
    · exact exec_not_refused _ _ _ h

/-- The configuration is refused exactly when it is not well-formed (00_scope.md R7). -/
theorem step_illFormed_iff (s : State) : step s = .refused .illFormedConfiguration ↔ ¬s.cfg.WellFormed :=
  ⟨fun h hw => step_ne_illFormed hw h, step_of_illFormed⟩

/-! ### The modular difference -/

/-- `subN` is below 2^N. -/
theorem subN_lt (c : Config) (a b : Ts) : subN c a b < 2 ^ c.tsWidth := Nat.mod_lt _ (Nat.two_pow_pos _)

/-- `subN` is the integer difference modulo 2^N (00_scope.md R12): the 32-bit difference differs from it by a multiple of
2^32, which 2^N divides. -/
theorem subN_eq_emod {c : Config} (a b : Ts) (hN : c.tsWidth ≤ 32) :
    (subN c a b : Int) = ((a.toNat : Int) - (b.toNat : Int)) % (2 ^ c.tsWidth : Int) := by
  have hdvd : (2 ^ c.tsWidth : Int) ∣ 2 ^ 32 := pow_dvd_pow 2 hN
  have hdiff : ((a - b).toNat : Int) = ((a.toNat : Int) - (b.toNat : Int)) % 2 ^ 32 := by
    rw [BitVec.toNat_sub]
    omega
  calc (subN c a b : Int) = ((a - b).toNat : Int) % 2 ^ c.tsWidth := by simp [subN]
    _ = ((a.toNat : Int) - (b.toNat : Int)) % 2 ^ 32 % 2 ^ c.tsWidth := by rw [hdiff]
    _ = ((a.toNat : Int) - (b.toNat : Int)) % 2 ^ c.tsWidth := Int.emod_emod_of_dvd _ hdvd

/-! ### The statements of 00_scope.md -/

/-- Settles O9: the refusal is that of `step_illFormed_iff`, its test the list of R7. -/
theorem exactlyIllFormedConfigurationsRefused : Obligations.ExactlyIllFormedConfigurationsRefused := fun s =>
  (step_illFormed_iff s).trans (not_congr (wellFormed_iff_constraints s.cfg))

/-- Settles O25: the value by `subN_eq_emod`, its bound by `subN_lt`. -/
theorem subNIsTheModularDifference : Obligations.SubNIsTheModularDifference := fun c a b hN =>
  ⟨subN_eq_emod a b hN, Nat.le_sub_one_of_lt (subN_lt c a b)⟩

/-- Settles O7: the word is fetched with its agent served, and serving an agent leaves the configuration. -/
theorem stepRunsTheDecodedOperation : Obligations.StepRunsTheDecodedOperation := by
  intro s a turns w rest i hw hs hq hd
  have hd : decode (serve s a turns rest).cfg w = .ok i := by rw [serve_cfg, hd]
  exact step_of_decoded hw (fetch_of_queued hs hq) hd

end Sys2Proof.Machine
end

section
/-! SUPPORT for spec 10_state.md: what an `EDGE` that answers does to the registers, said once, with the events of
Safety.lean that go with each case; and what every operation leaves unchanged. -/

namespace Sys2Proof.Machine

/-! ### The effect of an edge on the registers -/

/-- An operation in a state other than `ReceivingOne` pushes no bit (40_edge.md R108). -/
theorem pushedBit_of_state_ne {i : Instr} {s : State} (hs : s.regs.state ≠ .receivingOne) : pushedBit i s = none := by
  cases hb : pushedBit i s with
  | none => rfl
  | some b =>
    obtain ⟨ts, lvl, -, -, hr, -⟩ := pushedBit_some hb
    exact absurd hr hs

/-- The operation that pushes the last bit commits when the completed frame passes every check (41_frame_decode.md
R148). -/
theorem commitsFrame_of_last_bit {i : Instr} {s : State} {b : Bool} (hb : pushedBit i s = some b)
    (hc : s.regs.count.toNat = 58) : commitsFrame i s = (failedCheck s.cfg (setFrameBit s.regs.frame 58 b)).isNone := by
  simp [commitsFrame, hb, hc]

/-- The operation that pushes a bit completes the frame exactly when it is the 59th (41_frame_decode.md R141). -/
theorem completesFrame_of_bit {i : Instr} {s : State} {b : Bool} (hb : pushedBit i s = some b) :
    completesFrame i s = decide (s.regs.count.toNat = 58) := by
  simp [completesFrame, pushesBit, hb]

/-- A bit before the last commits nothing. -/
theorem commitsFrame_of_room {i : Instr} {s : State} (hc : s.regs.count.toNat < 58) : commitsFrame i s = false := by
  unfold commitsFrame
  split
  · simp [show s.regs.count.toNat ≠ 58 by omega]
  · rfl

/-- What a received bit that answers has done: the 59th is followed by the decode (41_frame_decode.md R141). -/
theorem receiveBit_ok {c : Config} {b : Bool} {r q : Regs} (h : receiveBit c b r = .ok q) :
    (r.count.toNat < 58 ∧
      q = { r with
        frame := setFrameBit r.frame r.count.toNat b, count := r.count + 1, state := .receivingZero }) ∨
    (r.count.toNat = 58 ∧
      q = { decodeAndCommit c { r with frame := setFrameBit r.frame 58 b, count := 59 } with state := .syncSearch }) := by
  have hlt : r.count.toNat < 59 := by
    by_contra hge
    rw [receiveBit_of_ge hge] at h
    cases h
  rw [receiveBit_of_lt hlt] at h
  have h := (Except.ok.inj h).symm
  split at h
  · next h58 =>
    have h59 : r.count + 1 = 59 := by
      rw [← BitVec.toNat_inj, count_succ_toNat hlt, h58]
      rfl
    rw [h58, h59] at h
    exact .inr ⟨h58, h⟩
  · exact .inl ⟨by omega, h⟩

/-- What the state's rule of an accepted edge makes of the registers, before the edge is recorded (the rows of 40_edge.md
R112, the framing errors taken together). -/
inductive EdgeEffect (ts : Ts) (lvl : Bool) (s : State) (q : Regs) : Prop
  /-- The power-on delay (R106). -/
  | powerOn (before : s.regs.state = .powerOnDelay)
      (rule : q = edgePowerOnDelay s.cfg ts (isLead s.cfg lvl) s.regs)
  /-- The search for a minute boundary (R107). -/
  | search (before : s.regs.state = .syncSearch) (rule : q = syncEval s.cfg ts (isLead s.cfg lvl) s.regs)
  /-- A framing error (R108 to R110). -/
  | abandon (code : FrameOutcome) (before : s.regs.state = .receivingOne ∨ s.regs.state = .receivingZero)
      (bit : pushedBit (.edge ts lvl) s = none) (error : framingError (.edge ts lvl) s = true)
      (rule : q = resync s.cfg code ts (isLead s.cfg lvl) s.regs)
  /-- A bit before the last (R108). -/
  | store (b : Bool) (before : s.regs.state = .receivingOne) (trail : isLead s.cfg lvl = false)
      (bit : pushedBit (.edge ts lvl) s = some b) (room : s.regs.count.toNat < 58)
      (rule : q = { s.regs with
        frame := setFrameBit s.regs.frame s.regs.count.toNat b, count := s.regs.count + 1, state := .receivingZero })
  /-- The last bit of a frame that fails a check (41_frame_decode.md R147). -/
  | reject (b : Bool) (code : FrameOutcome) (before : s.regs.state = .receivingOne) (trail : isLead s.cfg lvl = false)
      (bit : pushedBit (.edge ts lvl) s = some b) (last : s.regs.count.toNat = 58)
      (failed : failedCheck s.cfg (setFrameBit s.regs.frame 58 b) = some code)
      (rule : q = { s.regs with
        frame := setFrameBit s.regs.frame 58 b, count := 59, lastOutcome := code, state := .syncSearch })
  /-- The last bit of a frame that passes every check (41_frame_decode.md R148). -/
  | commit (b : Bool) (before : s.regs.state = .receivingOne) (trail : isLead s.cfg lvl = false)
      (bit : pushedBit (.edge ts lvl) s = some b) (last : s.regs.count.toNat = 58)
      (passed : failedCheck s.cfg (setFrameBit s.regs.frame 58 b) = none)
      (rule : q = { commitFrame (setFrameBit s.regs.frame 58 b)
        { s.regs with frame := setFrameBit s.regs.frame 58 b, count := 59 } with state := .syncSearch })
  /-- The next second begins (R109). -/
  | tick (before : s.regs.state = .receivingZero) (lead : isLead s.cfg lvl = true)
      (rule : q = { s.regs with state := .receivingOne })

/-- A bit received in `ReceivingOne` is stored, or completes a frame that is rejected or committed. -/
theorem edgeEffect_of_receiveBit {ts : Ts} {lvl b : Bool} {s : State} {q : Regs} (hs : s.regs.state = .receivingOne)
    (hl : isLead s.cfg lvl = false) (hb : pushedBit (.edge ts lvl) s = some b) (h : receiveBit s.cfg b s.regs = .ok q) :
    EdgeEffect ts lvl s q := by
  rcases receiveBit_ok h with ⟨hc, hq⟩ | ⟨hc, hq⟩
  · exact .store b hs hl hb hc hq
  · cases hf : failedCheck s.cfg (setFrameBit s.regs.frame 58 b) with
    | some code =>
      rw [decodeAndCommit_failed (r := { s.regs with frame := setFrameBit s.regs.frame 58 b, count := 59 }) rfl hf]
        at hq
      exact .reject b code hs hl hb hc hf hq
    | none =>
      rw [decodeAndCommit_passed (r := { s.regs with frame := setFrameBit s.regs.frame 58 b, count := 59 }) rfl hf]
        at hq
      exact .commit b hs hl hb hc hf hq

/-- The state's rule of an accepted edge has one of these effects. -/
theorem edgeEffect_of_edgeByState {ts : Ts} {lvl : Bool} {s : State} {q : Regs}
    (ha : acceptsEdge (.edge ts lvl) s = true) (h : edgeByState s.cfg ts (isLead s.cfg lvl) s.regs = .ok q) :
    EdgeEffect ts lvl s q := by
  rcases edgeByState_cases h with ⟨hs, hq⟩ | ⟨hs, hq⟩ | ⟨hs, hl, hq⟩ | ⟨hs, hl, hc, hq⟩ | ⟨hs, hl, b, hc, -, hq⟩ |
    ⟨hs, hl, hq⟩ | ⟨hs, hl, -, hq⟩ | ⟨hs, hl, hi, -, hq⟩ | ⟨hs, hl, hi, -, hq⟩
  · exact .powerOn hs hq
  · exact .search hs hq
  · exact .abandon _ (.inl hs) (by simp [pushedBit, hl]) (by simp [framingError, ha, hs, hl]) hq
  · exact .abandon _ (.inl hs) (by simp [pushedBit, hc]) (by simp [framingError, ha, hs, hc]) hq
  · exact edgeEffect_of_receiveBit hs hl (by simp [pushedBit, ha, hs, hl, hc]) hq
  · exact .abandon _ (.inr hs) (pushedBit_of_state_ne (by simp [hs])) (by simp [framingError, ha, hs, hl]) hq
  · exact .tick hs hl hq
  · exact .abandon _ (.inr hs) (pushedBit_of_state_ne (by simp [hs])) (by simp [framingError, ha, hs, hi]) hq
  · exact .abandon _ (.inr hs) (pushedBit_of_state_ne (by simp [hs])) (by simp [framingError, ha, hs, hi]) hq

/-- Everything an `EDGE` that answers can have done to the registers: nothing when it is ignored; otherwise the effect of
the state's rule, and the edge is recorded (40_edge.md R104, R105 and R111). -/
theorem exec_edge_effect {ts : Ts} {lvl : Bool} {s t : State} (h : exec (.edge ts lvl) s = .next t) :
    (acceptsEdge (.edge ts lvl) s = false ∧ t = s) ∨
    (acceptsEdge (.edge ts lvl) s = true ∧
      ∃ q, EdgeEffect ts lvl s q ∧ t = { s with regs := recordEdge ts (isLead s.cfg lvl) q }) := by
  rcases execEdge_cases h with ⟨hd, ht⟩ | ⟨hd, q, hq, ht⟩
  · exact .inl ⟨by simp [acceptsEdge, hd], ht⟩
  · have ha : acceptsEdge (.edge ts lvl) s = true := by simp [acceptsEdge, hd]
    exact .inr ⟨ha, q, edgeEffect_of_edgeByState ha hq, ht⟩

/-- An `EDGE` that is not accepted pushes no bit. -/
theorem pushedBit_of_not_accepted {i : Instr} {s : State} (ha : acceptsEdge i s = false) : pushedBit i s = none := by
  cases i with
  | edge ts lvl => simp [pushedBit, ha]
  | nop => rfl
  | take => rfl
  | reset => rfl

/-! ### The frame of every operation outside the registers -/

/-- An `EDGE` writes nothing but registers (10_state.md R43). -/
theorem exec_edge_frame {ts : Ts} {lvl : Bool} {s t : State} (h : exec (.edge ts lvl) s = .next t) :
    t = { s with regs := t.regs } := by
  rcases exec_edge_effect h with ⟨-, rfl⟩ | ⟨-, q, -, rfl⟩
  · rfl
  · rfl

/-- An operation other than `TAKE` writes nothing but registers (10_state.md R43, 30_encoding.md R79). -/
theorem exec_frame_of_ne_take {i : Instr} {s t : State} (h : exec i s = .next t) (hi : i ≠ .take) :
    t = { s with regs := t.regs } := by
  rcases exec_cases h with ⟨-, rfl⟩ | ⟨ts, lvl, rfl, he⟩ | ⟨rfl, -⟩ | ⟨-, rfl⟩
  · rfl
  · exact exec_edge_frame he
  · exact absurd rfl hi
  · rfl

/-- No operation writes the configuration (10_state.md R43). -/
theorem exec_cfg {i : Instr} {s t : State} (h : exec i s = .next t) : t.cfg = s.cfg := by
  by_cases hi : i = .take
  · subst hi
    rw [← Host.Outcome.next.inj h, respond_cfg]
  · rw [exec_frame_of_ne_take h hi]

/-- Settles O12: `TAKE` writes `FULL`, `OVERRUN` and one response; the other operations write registers only. -/
theorem operationsLeaveAgentsAndConfiguration : Obligations.OperationsLeaveAgentsAndConfiguration := by
  intro i s t h
  by_cases hi : i = .take
  · subst hi
    have ht := (Host.Outcome.next.inj h).symm
    subst ht
    exact ⟨rfl, rfl, rfl, fun a => by cases a <;> rfl, fun hne => absurd rfl hne, fun _ => ⟨_, rfl⟩⟩
  · rw [exec_frame_of_ne_take h hi]
    exact ⟨rfl, rfl, rfl, queueOf_with_regs s _, fun _ => rfl, fun he => absurd he hi⟩

/-! ### The hand-off registers -/

/-- The delay rule writes no hand-off register (40_edge.md R106). -/
theorem edgePowerOnDelay_sameObservable (c : Config) (ts : Ts) (lead : Bool) (r : Regs) :
    (edgePowerOnDelay c ts lead r).SameObservable r := by
  unfold edgePowerOnDelay
  split <;> simp [Regs.SameObservable, Regs.SameResult]

/-- What an operation other than `TAKE` and `RESET` may make of the result register, `FULL` and `OVERRUN` (10_state.md R36
to R38): a commit writes all three, and nothing else writes any. -/
inductive HandOffEffect (i : Instr) (s : State) (q : Regs) : Prop
  /-- The operation commits the frame that its bit completes; a commit over a `FULL` result is an overrun. -/
  | written (b : Bool) (commits : commitsFrame i s = true) (bit : pushedBit i s = some b)
      (result : q.SameResult (writeResult (setFrameBit s.regs.frame 58 b) s.regs)) (full : q.full = true)
      (overrun : q.overrun = (s.regs.overrun || s.regs.full))
  /-- The operation commits nothing. -/
  | kept (silent : commitsFrame i s = false) (result : q.SameResult s.regs) (full : q.full = s.regs.full)
      (overrun : q.overrun = s.regs.overrun)

/-- An operation that leaves the hand-off registers and commits nothing. -/
theorem HandOffEffect.of_sameObservable {i : Instr} {s : State} {q : Regs} (hc : commitsFrame i s = false)
    (h : q.SameObservable s.regs) : HandOffEffect i s q := by
  obtain ⟨result, full, overrun, -⟩ := h
  exact .kept hc result full overrun

/-- The state's rule of an accepted edge writes the hand-off registers on a commit only. -/
theorem EdgeEffect.handOff {ts : Ts} {lvl : Bool} {s : State} {q : Regs} (h : EdgeEffect ts lvl s q) :
    HandOffEffect (.edge ts lvl) s q := by
  cases h with
  | powerOn before rule =>
    rw [rule]
    exact .of_sameObservable (commitsFrame_of_none (pushedBit_of_state_ne (by simp [before])))
      (edgePowerOnDelay_sameObservable _ _ _ _)
  | search before rule =>
    exact .of_sameObservable (commitsFrame_of_none (pushedBit_of_state_ne (by simp [before])))
      (by simp [Regs.SameObservable, Regs.SameResult, rule])
  | abandon _ _ bit _ rule =>
    exact .kept (commitsFrame_of_none bit) (by simp [Regs.SameResult, rule]) (by simp [rule]) (by simp [rule])
  | store _ _ _ _ room rule =>
    exact .kept (commitsFrame_of_room room) (by simp [Regs.SameResult, rule]) (by simp [rule]) (by simp [rule])
  | reject _ _ _ _ bit last failed rule =>
    exact .kept (by simp [commitsFrame_of_last_bit bit last, failed]) (by simp [Regs.SameResult, rule]) (by simp [rule])
      (by simp [rule])
  | commit b _ _ bit last passed rule =>
    exact .written b (by simp [commitsFrame_of_last_bit bit last, passed]) bit (by simp [Regs.SameResult, rule])
      (by simp [rule]) (by simp [rule])
  | tick before _ rule =>
    exact .of_sameObservable (commitsFrame_of_none (pushedBit_of_state_ne (by simp [before])))
      (by simp [Regs.SameObservable, Regs.SameResult, rule])

/-- Recording the edge writes no hand-off register (40_edge.md R111). -/
theorem HandOffEffect.recordEdge {i : Instr} {s : State} {q : Regs} (h : HandOffEffect i s q) (ts : Ts) (lead : Bool) :
    HandOffEffect i s (recordEdge ts lead q) := by
  cases h with
  | written b commits bit result full overrun =>
    exact .written b commits bit (by simpa [Regs.SameResult] using result) (by simpa using full) (by simpa using overrun)
  | kept silent result full overrun =>
    exact .kept silent (by simpa [Regs.SameResult] using result) (by simpa using full) (by simpa using overrun)

/-- What an `EDGE` that answers has done to the result register, `FULL` and `OVERRUN` (10_state.md R36 to R38). -/
theorem exec_edge_handOff {ts : Ts} {lvl : Bool} {s t : State} (h : exec (.edge ts lvl) s = .next t) :
    HandOffEffect (.edge ts lvl) s t.regs := by
  rcases exec_edge_effect h with ⟨ha, rfl⟩ | ⟨-, q, he, rfl⟩
  · exact .kept (commitsFrame_of_none (pushedBit_of_not_accepted ha)) ⟨rfl, rfl, rfl, rfl, rfl, rfl⟩ rfl rfl
  · exact he.handOff.recordEdge ts _

/-- An `EDGE` that is neither a framing error nor completes a frame leaves `LAST_OUTCOME` (10_state.md R39). -/
theorem exec_edge_lastOutcome {ts : Ts} {lvl : Bool} {s t : State} (h : exec (.edge ts lvl) s = .next t)
    (hc : completesFrame (.edge ts lvl) s = false) (hf : framingError (.edge ts lvl) s = false) :
    t.regs.lastOutcome = s.regs.lastOutcome := by
  rcases exec_edge_effect h with ⟨-, rfl⟩ | ⟨-, q, he, rfl⟩
  · rfl
  cases he with
  | powerOn _ rule =>
    obtain ⟨-, -, -, ho⟩ := edgePowerOnDelay_sameObservable s.cfg ts (isLead s.cfg lvl) s.regs
    simpa [rule] using ho
  | search _ rule => simp [rule]
  | abandon _ _ _ error _ => simp [error] at hf
  | store _ _ _ _ _ rule => simp [rule]
  | reject _ _ _ _ bit last _ _ => simp [completesFrame_of_bit bit, last] at hc
  | commit _ _ _ bit last _ _ => simp [completesFrame_of_bit bit, last] at hc
  | tick _ _ rule => simp [rule]

/-! ### The state an accepted edge enters, and the timestamps it leaves -/

/-- `ReceivingOne` is entered by leading edges alone, `ReceivingZero` by trailing edges from `ReceivingOne` alone, and
`PowerOnDelay` by no edge (40_edge.md R112). -/
theorem EdgeRow.enters {ts : Ts} {lvl : Bool} {s t : State} (h : EdgeRow ts lvl s t) :
    (t.regs.state = .receivingOne → s.Leading lvl) ∧
    (t.regs.state = .receivingZero → s.regs.state = .receivingOne ∧ ¬s.Leading lvl) ∧
    (t.regs.state = .powerOnDelay → s.regs.state = .powerOnDelay) := by
  cases h with
  | waiting before _ _ _ after _ => rcases after with after | after <;> simp [after, before]
  | searching _ _ _ _ after _ => simp [after]
  | starting _ _ _ _ lead after _ => simp [after, lead]
  | failing _ _ _ _ after _ => simp [after]
  | restarting _ _ _ _ lead after _ => simp [after, lead]
  | pushing _ before _ _ _ trail _ after _ => simpa [after, before] using trail
  | completing _ _ _ _ _ _ _ after _ => simp [after]
  | ticking _ _ _ _ lead after _ => simp [after, lead]

/-- No state's rule writes the last leading edge: only the recording does (40_edge.md R111). -/
theorem EdgeEffect.lastLead {ts : Ts} {lvl : Bool} {s : State} {q : Regs} (h : EdgeEffect ts lvl s q) :
    q.lastLeadTs = s.regs.lastLeadTs ∧ q.lastLeadValid = s.regs.lastLeadValid := by
  cases h with
  | powerOn _ rule =>
    rw [rule]
    unfold edgePowerOnDelay
    split <;> simp
  | search _ rule => simp [rule]
  | abandon _ _ _ _ rule => simp [rule]
  | store _ _ _ _ _ rule => simp [rule]
  | reject _ _ _ _ _ _ _ rule => simp [rule]
  | commit _ _ _ _ _ _ rule => simp [rule]
  | tick _ _ rule => simp [rule]

/-- The power-on reference after the delay rule (40_edge.md R106). -/
theorem edgePowerOnDelay_podRef (c : Config) (ts : Ts) (lead : Bool) (r : Regs) :
    (edgePowerOnDelay c ts lead r).podRefTs = (if r.podRefValid then r.podRefTs else ts) ∧
    (edgePowerOnDelay c ts lead r).podRefValid = true := by
  unfold edgePowerOnDelay
  split <;> simp

/-- The power-on reference after an accepted edge: that of the delay rule in `PowerOnDelay`, unchanged elsewhere
(10_state.md R28). -/
theorem EdgeEffect.podRef {ts : Ts} {lvl : Bool} {s : State} {q : Regs} (h : EdgeEffect ts lvl s q) :
    if s.regs.state = .powerOnDelay then
      q.podRefTs = (if s.regs.podRefValid then s.regs.podRefTs else ts) ∧ q.podRefValid = true
    else q.podRefTs = s.regs.podRefTs ∧ q.podRefValid = s.regs.podRefValid := by
  cases h with
  | powerOn before rule =>
    rw [if_pos before, rule]
    exact edgePowerOnDelay_podRef _ _ _ _
  | search before rule => simp [rule, before]
  | abandon _ before _ _ rule => rcases before with before | before <;> simp [rule, before]
  | store _ before _ _ _ rule => simp [rule, before]
  | reject _ _ before _ _ _ _ rule => simp [rule, before]
  | commit _ before _ _ _ _ rule => simp [rule, before]
  | tick before _ rule => simp [rule, before]

end Sys2Proof.Machine
end

section
/-! PROOFS for spec 10_state.md R36 to R39: which edges write the hand-off registers, and that `FULL` and `OVERRUN` count
the commits of a run up to two. -/

namespace Sys2Proof.Machine

/-- Settles O43, by what an edge does to the hand-off registers (`exec_edge_handOff`, `exec_edge_lastOutcome`). -/
theorem onlyFrameEventsTouchTheHandOff : Obligations.OnlyFrameEventsTouchTheHandOff := by
  intro ts lvl s t h
  refine ⟨fun hc => ?_, exec_edge_lastOutcome h⟩
  cases exec_edge_handOff h with
  | written _ commits _ _ _ _ => simp [hc] at commits
  | kept _ result full overrun => exact ⟨result, full, overrun⟩

/-! ### FULL and OVERRUN along a run -/

/-- `FULL` and `OVERRUN` after an operation other than `TAKE` and `RESET`: both follow from whether it commits. -/
theorem exec_full_overrun {i : Instr} {s t : State} (h : exec i s = .next t) (hi : i ≠ .take) (hr : i ≠ .reset) :
    t.regs.full = (s.regs.full || commitsFrame i s) ∧
    t.regs.overrun = (s.regs.overrun || (s.regs.full && commitsFrame i s)) := by
  rcases exec_cases h with ⟨rfl, rfl⟩ | ⟨ts, lvl, rfl, he⟩ | ⟨rfl, -⟩ | ⟨rfl, -⟩
  · simp [commitsFrame_of_none (pushedBit_nop t)]
  · cases exec_edge_handOff he with
    | written _ commits _ _ full overrun => simp [commits, full, overrun]
    | kept silent _ full overrun => simp [silent, full, overrun]
  · exact absurd rfl hi
  · exact absurd rfl hr

/-- Counting a frame already waiting as one commit, `FULL` says that there has been one and `OVERRUN`, if not 1 before,
that there have been two. The number of commits so far enters only through `FULL`, which makes it an induction over the
run. -/
theorem full_overrun_along {is : List Instr} {s t : State} (hi : .take ∉ is) (hr : .reset ∉ is)
    (h : execAll is s = .next t) :
    (t.regs.full = true ↔ 1 ≤ s.regs.full.toNat + countAlong commitsFrame is s) ∧
    (t.regs.overrun = true ↔ s.regs.overrun = true ∨ 2 ≤ s.regs.full.toNat + countAlong commitsFrame is s) := by
  induction is generalizing s with
  | nil =>
    rw [← Host.Outcome.next.inj h]
    cases s.regs.full <;> simp [countAlong]
  | cons i is ih =>
    obtain ⟨u, hu, ht⟩ := execAll_cons_cases h
    simp only [List.mem_cons, not_or] at hi hr
    obtain ⟨hf, ho⟩ := exec_full_overrun hu (Ne.symm hi.1) (Ne.symm hr.1)
    obtain ⟨ihf, iho⟩ := ih hi.2 hr.2 ht
    rw [countAlong_cons hu, ihf, iho, hf, ho]
    cases s.regs.full with
    | false => cases commitsFrame i s <;> simp
    | true =>
      cases commitsFrame i s with
      | false => simp
      | true => simp; omega

/-- Settles O21: `full_overrun_along` from a state with nothing to take. -/
theorem fullAndOverrunCountTheCommits : Obligations.FullAndOverrunCountTheCommits := by
  intro is s t hf ho hi hr h
  simpa [hf, ho] using full_overrun_along hi hr h

end Sys2Proof.Machine
end

section
/-! PROOFS for spec 10_state.md R23, R28, R31, R34, R41 and R44: codes and reset values, the response word, the
stored bit, the power-on reference and the history clause of `ReceivingZero`. -/

namespace Sys2Proof.Machine

/-! ### Codes and reset values -/

/-- Settles O14: each code by its definition. -/
theorem stateAndOutcomeCodes : Obligations.StateAndOutcomeCodes :=
  ⟨⟨rfl, rfl, rfl, rfl⟩, rfl, rfl, rfl, rfl, rfl, rfl, rfl, rfl, rfl, rfl, rfl⟩

/-- Settles O13: `RESET` is the update of the registers by `Regs.reset`, whose values are those of R44. -/
theorem resetLeavesResetValues : Obligations.ResetLeavesResetValues :=
  ⟨rfl, by decide, fun _ => rfl⟩

/-- No two outcomes share a code (30_encoding.md R80). -/
theorem frameOutcome_code_injective {o p : FrameOutcome} (h : o.code = p.code) : o = p := by
  revert h
  cases o <;> cases p <;> decide

/-! ### The response word -/

/-- A field of the response word, read at its position (30_encoding.md R78). -/
theorem responseWord_field {n : Nat} {r : Regs} {v : BitVec n} (lo : Nat)
    (h : ∀ j, j < n → (responseWord r).getLsbD (lo + j) = v.getLsbD j) : (responseWord r).extractLsb' lo n = v := by
  apply BitVec.eq_of_getLsbD_eq
  intro j hj
  simp [hj, h j hj]

/-- The fields of the response word and their positions (30_encoding.md R78). -/
theorem responseWord_fields (r : Regs) :
    (responseWord r).getLsbD 0 = r.full ∧ (responseWord r).getLsbD 1 = r.overrun ∧
    (responseWord r).extractLsb' 4 4 = r.lastOutcome.code ∧ (responseWord r).extractLsb' 8 7 = r.rMinute ∧
    (responseWord r).extractLsb' 16 6 = r.rHour ∧ (responseWord r).extractLsb' 24 6 = r.rDay ∧
    (responseWord r).extractLsb' 32 3 = r.rDow ∧ (responseWord r).extractLsb' 40 5 = r.rMonth ∧
    (responseWord r).extractLsb' 48 8 = r.rYear := by
  refine ⟨responseWord_getLsbD r 0, responseWord_getLsbD r 1, ?_, ?_, ?_, ?_, ?_, ?_, ?_⟩
  all_goals
    refine responseWord_field _ fun j hj => ?_
    rw [responseWord_getLsbD, Nat.add_sub_cancel_left]
    grind

/-- Settles O18: the word is built from the observable registers, and each of them is read back from its field. -/
theorem responseShowsExactlyTheObservable : Obligations.ResponseShowsExactlyTheObservable := by
  intro r q
  constructor
  · intro h
    obtain ⟨f1, o1, c1, mi1, h1, d1, w1, mo1, y1⟩ := responseWord_fields r
    obtain ⟨f2, o2, c2, mi2, h2, d2, w2, mo2, y2⟩ := responseWord_fields q
    rw [h] at f1 o1 c1 mi1 h1 d1 w1 mo1 y1
    exact ⟨⟨mi1.symm.trans mi2, h1.symm.trans h2, d1.symm.trans d2, w1.symm.trans w2, mo1.symm.trans mo2,
      y1.symm.trans y2⟩, f1.symm.trans f2, o1.symm.trans o2, frameOutcome_code_injective (c1.symm.trans c2)⟩
  · rintro ⟨⟨hmi, hh, hd, hw, hmo, hy⟩, hf, ho, hc⟩
    simp only [responseWord, hmi, hh, hd, hw, hmo, hy, hf, ho, hc]

/-! ### The stored bit -/

/-- Settles O34: below the bound that the invariant gives in `ReceivingOne`, the push is `setFrameBit` and one more in
`COUNT`, and the decode after the 59th bit writes neither. -/
theorem acceptedBitIsStoredAtCount : Obligations.AcceptedBitIsStoredAtCount := by
  intro i s b hinv hb
  obtain ⟨-, -, -, -, hs, -⟩ := pushedBit_some hb
  have hlt : s.regs.count.toNat < 59 := by
    have := hinv.receiving_count (.inl hs)
    omega
  obtain ⟨ts, lvl, -, he⟩ := exec_of_pushedBit hb hlt
  refine ⟨_, he, ?_, fun k hk => ?_⟩
  · split <;> simp only [decodeAndCommit_count, count_succ_toNat hlt]
  · split <;> simp only [decodeAndCommit_frame, getLsbD_setFrameBit _ _ _ _ hk]

/-! ### The power-on reference -/

/-- Settles O35: only the delay rule writes the reference, and only when it is not valid yet. -/
theorem powerOnReferenceWrittenOnce : Obligations.PowerOnReferenceWrittenOnce := by
  intro i s t h hr
  rcases exec_cases h with ⟨rfl, rfl⟩ | ⟨ts, lvl, rfl, he⟩ | ⟨rfl, rfl⟩ | ⟨rfl, -⟩
  · simp
  · rcases exec_edge_effect he with ⟨ha, rfl⟩ | ⟨ha, q, hq, rfl⟩
    · simp [ha]
    · have hp := hq.podRef
      by_cases hs : s.regs.state = .powerOnDelay
      · obtain ⟨refTs, refValid⟩ := (if_pos hs).mp hp
        cases hv : s.regs.podRefValid <;> simp [hs, ha, hv, refTs, refValid]
      · simpa [hs] using hp
  · simp
  · exact absurd rfl hr

/-! ### The last accepted edge of a run that ends in ReceivingZero -/

/-- The third clause of 10_state.md R31 for the history `last`: in `ReceivingZero` the last accepted edge was a trailing
edge. -/
def TrailingBefore (last : Option Bool) (s : State) : Prop :=
  s.regs.state = .receivingZero → last = some (!s.cfg.pulseActiveLevel)

/-- The history after one more operation. -/
theorem lastAccepted_cons {last : Option Bool} {i : Instr} {is : List Instr} {s t : State} (h : exec i s = .next t) :
    lastAccepted last (i :: is) s = lastAccepted (lastAccepted last [i] s) is t := by
  simp [lastAccepted, h]

/-- An operation that is no accepted edge leaves the history. -/
theorem lastAccepted_not_accepted {last : Option Bool} {i : Instr} {s t : State} (h : exec i s = .next t)
    (ha : acceptsEdge i s = false) : lastAccepted last [i] s = last := by
  cases i <;> simp [lastAccepted, h, ha]

/-- An accepted edge is the last one. -/
theorem lastAccepted_accepted {last : Option Bool} {ts : Ts} {lvl : Bool} {s t : State}
    (h : exec (.edge ts lvl) s = .next t) (ha : acceptsEdge (.edge ts lvl) s = true) :
    lastAccepted last [.edge ts lvl] s = some lvl := by
  simp [lastAccepted, h, ha]

/-- Every operation keeps the clause: `ReceivingZero` is entered by a trailing edge alone, and every accepted edge leaves
it. -/
theorem trailingBefore_exec {last : Option Bool} {i : Instr} {s t : State} (h : exec i s = .next t)
    (hl : TrailingBefore last s) : TrailingBefore (lastAccepted last [i] s) t := by
  intro hz
  rcases exec_cases h with ⟨rfl, rfl⟩ | ⟨ts, lvl, rfl, he⟩ | ⟨rfl, rfl⟩ | ⟨rfl, rfl⟩
  · rw [lastAccepted_not_accepted h rfl]
    exact hl hz
  · rcases exec_edge_effect h with ⟨ha, rfl⟩ | ⟨ha, -⟩
    · rw [lastAccepted_not_accepted h ha]
      exact hl hz
    · rw [lastAccepted_accepted h ha, exec_cfg h]
      have hacc : s.Accepts ts := of_decide_eq_true (acceptsEdge_edge ts lvl s ▸ ha)
      obtain ⟨-, trail⟩ := (edge_row h hacc).enters.2.1 hz
      rw [Bool.eq_not_of_ne trail]
  · rw [lastAccepted_not_accepted h rfl]
    exact hl hz
  · cases hz

/-- Every sequence of operations keeps the clause. -/
theorem trailingBefore_execAll {last : Option Bool} {is : List Instr} {s t : State} (h : execAll is s = .next t)
    (hl : TrailingBefore last s) : TrailingBefore (lastAccepted last is s) t := by
  induction is generalizing last s with
  | nil =>
    rw [← Host.Outcome.next.inj h]
    exact hl
  | cons i is ih =>
    obtain ⟨u, hu, ht⟩ := execAll_cons_cases h
    rw [lastAccepted_cons hu]
    exact ih ht (trailingBefore_exec hu hl)

/-- No sequence of operations writes the configuration (10_state.md R43). -/
theorem execAll_cfg {is : List Instr} {s t : State} (h : execAll is s = .next t) : t.cfg = s.cfg := by
  induction is generalizing s with
  | nil => rw [← Host.Outcome.next.inj h]
  | cons i is ih =>
    obtain ⟨u, hu, ht⟩ := execAll_cons_cases h
    rw [ih ht, exec_cfg hu]

/-- Settles O36: outside `ReceivingZero` the clause holds of the empty history, and the run keeps it. -/
theorem receivingZeroFollowsATrailingEdge : Obligations.ReceivingZeroFollowsATrailingEdge := by
  intro is s t hs h hz
  rw [← execAll_cfg h]
  exact trailingBefore_execAll h (fun hz => absurd hz hs) hz

end Sys2Proof.Machine
end

section
/-! PROOFS for spec 10_state.md R20, R31, R35 and R40: the invariant of the registers holds at reset and every
step keeps it. -/

namespace Sys2Proof.Machine

/-- Settles O46: clause by clause; the three timestamps are 0, below 2^N for every N. -/
theorem registersWellFormedAtReset : Obligations.RegistersWellFormedAtReset := by
  intro s hs
  unfold State.Inv
  rw [hs]
  constructor
  case podRefTs_fits => exact Nat.two_pow_pos _
  case lastEdgeTs_fits => exact Nat.two_pow_pos _
  case lastLeadTs_fits => exact Nat.two_pow_pos _
  all_goals decide

/-! ### The parts of the invariant -/

/-- The frame buffer agrees with the decoder state (10_state.md R35). -/
structure BufferFits (st : DecoderState) (f : Frame) (n : BitVec 6) : Prop where
  above_count : ∀ k, n.toNat ≤ k → k < 59 → f.getLsbD k = false
  receiving : st = .receivingOne ∨ st = .receivingZero → n.toNat ≤ 58
  syncSearch : st = .syncSearch → n.toNat = 0 ∨ n.toNat = 59
  powerOnDelay : st = .powerOnDelay → n.toNat = 0 ∧ f = 0

/-- The hand-off registers hold legal values (10_state.md R20). -/
structure HandOffLegal (r : Regs) : Prop where
  minute : r.rMinute.toNat ≤ 85
  hour : r.rHour.toNat ≤ 45
  day : r.rDay.toNat ≤ 45
  month : r.rMonth.toNat ≤ 25
  year : r.rYear.toNat ≤ 165
  overrun_full : r.overrun = true → r.full = true

theorem Regs.Inv.buffer {c : Config} {r : Regs} (h : r.Inv c) : BufferFits r.state r.frame r.count where
  above_count k hn hk := h.frame_above_count ⟨k, hk⟩ hn
  receiving := h.receiving_count
  syncSearch := h.syncSearch_count
  powerOnDelay := h.powerOnDelay_count

theorem Regs.Inv.handOff {c : Config} {r : Regs} (h : r.Inv c) : HandOffLegal r where
  minute := h.minute_legal
  hour := h.hour_legal
  day := h.day_legal
  month := h.month_legal
  year := h.year_legal
  overrun_full := h.overrun_full

/-! ### The frame buffer -/

/-- An empty buffer agrees with every state. -/
theorem bufferFits_empty (st : DecoderState) : BufferFits st 0 0 where
  above_count := by simp
  receiving := by simp
  syncSearch := by simp
  powerOnDelay := by simp

/-- A bit stored before the last (10_state.md R34 and R35). -/
theorem BufferFits.store {f : Frame} {n : BitVec 6} (h : BufferFits .receivingOne f n) (b : Bool)
    (hn : n.toNat < 58) : BufferFits .receivingZero (setFrameBit f n.toNat b) (n + 1) where
  above_count k hk hlt := by
    rw [count_succ_toNat (by omega)] at hk
    rw [getLsbD_setFrameBit _ _ _ _ hlt, if_neg (by omega)]
    exact h.above_count k (by omega) hlt
  receiving _ := by
    rw [count_succ_toNat (by omega)]
    omega
  syncSearch he := by cases he
  powerOnDelay he := by cases he

/-- A full buffer, after the last bit. -/
theorem bufferFits_full (f : Frame) : BufferFits .syncSearch f 59 where
  above_count k hk hlt := absurd hlt (by simpa using hk)
  receiving := by simp
  syncSearch _ := .inr rfl
  powerOnDelay := by simp

/-- `sync_eval` keeps a buffer that agrees with its state: a boundary empties it. -/
theorem BufferFits.of_syncEval {r : Regs} (h : BufferFits r.state r.frame r.count) (c : Config) (ts : Ts) (lead : Bool) :
    BufferFits (syncEval c ts lead r).state (syncEval c ts lead r).frame (syncEval c ts lead r).count := by
  cases hb : minuteBoundary c ts lead r with
  | true =>
    rw [syncEval_boundary hb]
    exact bufferFits_empty _
  | false =>
    rw [syncEval_other hb]
    exact h

/-- The delay rule keeps it: in `PowerOnDelay` the buffer is empty. -/
theorem BufferFits.of_edgePowerOnDelay {r : Regs} (h : BufferFits r.state r.frame r.count) (hs : r.state = .powerOnDelay)
    (c : Config) (ts : Ts) (lead : Bool) :
    BufferFits (edgePowerOnDelay c ts lead r).state (edgePowerOnDelay c ts lead r).frame
      (edgePowerOnDelay c ts lead r).count := by
  obtain ⟨hn, hf⟩ := h.powerOnDelay hs
  unfold edgePowerOnDelay
  split
  · apply BufferFits.of_syncEval
    simp only [setPodReference_frame, setPodReference_count, hf, BitVec.eq_of_toNat_eq (y := 0) hn]
    exact bufferFits_empty _
  · simpa using h

/-- The rule of every accepted edge keeps the buffer in agreement with the state. -/
theorem EdgeEffect.buffer {ts : Ts} {lvl : Bool} {s : State} {q : Regs} (h : EdgeEffect ts lvl s q)
    (hb : BufferFits s.regs.state s.regs.frame s.regs.count) : BufferFits q.state q.frame q.count := by
  cases h with
  | powerOn before rule =>
    rw [rule]
    exact hb.of_edgePowerOnDelay before _ _ _
  | search _ rule =>
    rw [rule]
    exact hb.of_syncEval _ _ _
  | abandon _ _ _ _ rule =>
    rw [rule, resync_frame, resync_count]
    exact bufferFits_empty _
  | store b before _ _ room rule =>
    rw [before] at hb
    rw [rule]
    exact hb.store b room
  | reject _ _ _ _ _ _ _ rule =>
    rw [rule]
    exact bufferFits_full _
  | commit _ _ _ _ _ _ rule =>
    rw [rule]
    exact bufferFits_full _
  | tick before _ rule =>
    rw [rule]
    exact ⟨hb.above_count, fun _ => hb.receiving (.inr before), by simp, by simp⟩

/-! ### The hand-off registers -/

/-- The fields of a committed frame are in their ranges whatever the frame (10_state.md R20): the largest sums of the
weights of 30_encoding.md R82. -/
theorem frame_fields_le (f : Frame) :
    frameMinute f ≤ 85 ∧ frameHour f ≤ 45 ∧ frameDay f ≤ 45 ∧ frameMonth f ≤ 25 ∧ frameYear f ≤ 165 := by
  unfold frameMinute frameHour frameDay frameMonth frameYear bcd
  refine ⟨?_, ?_, ?_, ?_, ?_⟩ <;> bv_omega

/-- The fields written by a commit are legal, and `OVERRUN` is set with `FULL` (10_state.md R36 to R38). -/
theorem handOffLegal_of_written {f : Frame} {r q : Regs} (h : q.SameResult (writeResult f r)) (hf : q.full = true) :
    HandOffLegal q := by
  obtain ⟨hm, hh, hd, hmo, hy⟩ := frame_fields_le f
  obtain ⟨em, eh, ed, -, emo, ey⟩ := h
  constructor
  case overrun_full => exact fun _ => hf
  all_goals
    simp only [em, eh, ed, emo, ey, writeResult_rMinute, writeResult_rHour, writeResult_rDay, writeResult_rMonth,
      writeResult_rYear, BitVec.toNat_ofNat]
    omega

/-- Legality depends on the result register, `FULL` and `OVERRUN` alone. -/
theorem HandOffLegal.congr {r q : Regs} (h : HandOffLegal r) (hr : q.SameResult r) (hf : q.full = r.full)
    (ho : q.overrun = r.overrun) : HandOffLegal q := by
  obtain ⟨hm, hh, hd, -, hmo, hy⟩ := hr
  exact ⟨hm ▸ h.minute, hh ▸ h.hour, hd ▸ h.day, hmo ▸ h.month, hy ▸ h.year, by rw [hf, ho]; exact h.overrun_full⟩

/-- Every `EDGE` keeps the hand-off registers legal. -/
theorem HandOffLegal.exec_edge {ts : Ts} {lvl : Bool} {s t : State} (hs : HandOffLegal s.regs)
    (h : exec (.edge ts lvl) s = .next t) : HandOffLegal t.regs := by
  cases exec_edge_handOff h with
  | written _ _ _ result full _ => exact handOffLegal_of_written result full
  | kept _ result full overrun => exact hs.congr result full overrun

/-! ### The invariant along operations and steps -/

/-- The power-on reference after an accepted edge is the old one or the edge's timestamp. -/
theorem EdgeEffect.podRefTs_eq {ts : Ts} {lvl : Bool} {s : State} {q : Regs} (h : EdgeEffect ts lvl s q) :
    q.podRefTs = s.regs.podRefTs ∨ q.podRefTs = ts := by
  have hp := h.podRef
  split at hp
  · obtain ⟨refTs, -⟩ := hp
    rw [refTs]
    split <;> simp
  · exact .inl hp.1

/-- An `EDGE` with an N-bit timestamp keeps the invariant: the recording makes the clauses about the last edge and the
last leading edge true of whatever state the edge enters. -/
theorem State.Inv.of_exec_edge {ts : Ts} {lvl : Bool} {s t : State} (hs : s.Inv) (hts : ts.toNat < 2 ^ s.cfg.tsWidth)
    (h : exec (.edge ts lvl) s = .next t) : t.Inv := by
  have legal := hs.handOff.exec_edge h
  rcases exec_edge_effect h with ⟨-, rfl⟩ | ⟨ha, q, he, rfl⟩
  · exact hs
  obtain ⟨enterOne, enterZero, stay⟩ := (edge_row h (of_decide_eq_true (acceptsEdge_edge ts lvl s ▸ ha))).enters
  simp only [recordEdge_state] at enterOne enterZero stay
  obtain ⟨leadTs, leadValid⟩ := he.lastLead
  have buffer := he.buffer hs.buffer
  have lead (hq : q.state = .receivingOne) : isLead s.cfg lvl = true := by rw [isLead_eq, decide_eq_true (enterOne hq)]
  refine
    { receiving_edge_valid := fun _ => recordEdge_lastEdgeValid _ _ _
      receiving_lead_valid := ?_
      receivingOne_lead_is_edge := ?_
      powerOnDelay_no_lead := ?_
      frame_above_count := ?_
      receiving_count := by simpa using buffer.receiving
      syncSearch_count := by simpa using buffer.syncSearch
      powerOnDelay_count := by simpa using buffer.powerOnDelay
      podRefTs_fits := ?_
      lastEdgeTs_fits := by simpa using hts
      lastLeadTs_fits := ?_
      minute_legal := legal.minute
      hour_legal := legal.hour
      day_legal := legal.day
      month_legal := legal.month
      year_legal := legal.year
      overrun_full := legal.overrun_full }
  · rw [recordEdge_state, recordEdge_lastLeadValid]
    rintro (hq | hq)
    · simp [lead hq, hq]
    · simp [leadValid, hs.receiving_lead_valid (.inl (enterZero hq).1)]
  · rw [recordEdge_state, recordEdge_lastEdgeTs, recordEdge_lastLeadTs]
    intro hq
    simp [lead hq, hq]
  · rw [recordEdge_state, recordEdge_lastLeadValid]
    intro hq
    simp [hq, leadValid, hs.powerOnDelay_no_lead (stay hq)]
  · rw [recordEdge_frame, recordEdge_count]
    exact fun k hk => buffer.above_count k hk k.isLt
  · rw [recordEdge_podRefTs]
    rcases he.podRefTs_eq with hp | hp <;> rw [hp]
    · exact hs.podRefTs_fits
    · exact hts
  · rw [recordEdge_lastLeadTs, leadTs]
    split
    · exact hts
    · exact hs.lastLeadTs_fits

/-- Every operation that the configuration admits keeps the invariant. -/
theorem State.Inv.of_exec {i : Instr} {s t : State} (hs : s.Inv) (hi : i.WellFormed s.cfg) (h : exec i s = .next t) :
    t.Inv := by
  rcases exec_cases h with ⟨-, rfl⟩ | ⟨ts, lvl, rfl, he⟩ | ⟨-, rfl⟩ | ⟨-, rfl⟩
  · exact hs
  · exact hs.of_exec_edge hi he
  · exact { hs with overrun_full := fun ho => by cases ho }
  · exact registersWellFormedAtReset _ rfl

/-- A legal word is an operation that the configuration admits: its timestamp has N bits (30_encoding.md R72). -/
theorem decode_wellFormed {c : Config} {w : EventWord} {i : Instr} (h : decode c w = .ok i) : i.WellFormed c := by
  cases i with
  | edge ts lvl =>
    unfold decode at h
    split at h
    · split at h
      · cases h
      · split at h
        · cases h
        · next hts =>
          cases h
          have hz := congrArg BitVec.toNat (not_not.mp hts)
          rw [BitVec.toNat_ushiftRight, Nat.shiftRight_eq_div_pow] at hz
          exact (Nat.div_eq_zero_iff_lt (Nat.two_pow_pos _)).mp hz
    · split at h
      · cases h
      · split_ifs at h <;> cases h
  | nop => trivial
  | take => trivial
  | reset => trivial

/-- Fetching leaves the registers and the configuration, so it keeps the invariant (20_memory.md R53). -/
theorem State.Inv.of_fetch {s s1 : State} {w : EventWord} (hs : s.Inv) (h : fetch s = some (w, s1)) : s1.Inv := by
  obtain ⟨_, _, -, -, -, hr, hc, -⟩ := fetch_delivered h
  unfold State.Inv
  rw [hr, hc]
  exact hs

/-- Settles O47: a step is idle, or performs a decoded word, which the configuration admits. -/
theorem everyStepKeepsTheRegistersWellFormed : Obligations.EveryStepKeepsTheRegistersWellFormed := by
  intro s t hs h
  obtain ⟨-, ⟨-, rfl⟩ | ⟨w, s1, i, hf, hd, he⟩⟩ := step_cases h
  · exact hs
  · exact (hs.of_fetch hf).of_exec (decode_wellFormed hd) he

end Sys2Proof.Machine
end

section
/-! PROOFS for spec 10_state.md R28 and R44 and 93_implementation_defined.md I17: the registers that no rule reads in the
present state stay invisible. The relation of `SameButHidden` on the registers is kept by each operation on them, so by
`EDGE` and by every operation and every run. -/

namespace Sys2Proof.Machine

/-- Two register states differ at most in what no rule reads: the clauses of `SameButHidden` that speak of registers. -/
structure Regs.SameSeen (r q : Regs) : Prop where
  state : r.state = q.state
  podRefValid : r.state = .powerOnDelay → r.podRefValid = q.podRefValid
  podRefTs : r.state = .powerOnDelay → r.podRefValid = true → r.podRefTs = q.podRefTs
  lastEdgeValid : r.lastEdgeValid = q.lastEdgeValid
  lastEdgeTs : r.lastEdgeValid = true → r.lastEdgeTs = q.lastEdgeTs
  lastLeadValid : r.lastLeadValid = q.lastLeadValid
  lastLeadTs : r.lastLeadValid = true → r.lastLeadTs = q.lastLeadTs
  frame : r.state = .receivingOne ∨ r.state = .receivingZero → r.frame = q.frame
  count : r.state = .receivingOne ∨ r.state = .receivingZero → r.count = q.count
  observable : r.SameObservable q

/-- `SameButHidden` is `Regs.SameSeen` of the registers, with the rest of the state equal. -/
theorem sameButHidden_iff (s t : State) : SameButHidden s t ↔ ∃ q, t = { s with regs := q } ∧ s.regs.SameSeen q := by
  constructor
  · intro h
    exact ⟨t.regs, h.rest, { h with }⟩
  · rintro ⟨q, rfl, h⟩
    exact { h with rest := rfl }

theorem Regs.SameSeen.refl (r : Regs) : r.SameSeen r := by
  constructor <;> simp [Regs.SameObservable, Regs.SameResult]

section
variable {r q : Regs}

/-! ### What the rules read is the same -/

theorem Regs.SameSeen.pulseWidth (h : r.SameSeen q) (hv : r.lastEdgeValid = true) (c : Config) (ts : Ts) :
    pulseWidth c ts r = pulseWidth c ts q := by
  unfold Machine.pulseWidth
  rw [h.lastEdgeTs hv]

theorem Regs.SameSeen.interval (h : r.SameSeen q) (hv : r.lastLeadValid = true) (c : Config) (ts : Ts) :
    interval c ts r = interval c ts q := by
  unfold Machine.interval
  rw [h.lastLeadTs hv]

theorem Regs.SameSeen.debounced (h : r.SameSeen q) (c : Config) (ts : Ts) : debounced c ts r = debounced c ts q := by
  unfold Machine.debounced
  rw [← h.lastEdgeValid]
  cases hv : r.lastEdgeValid with
  | false => rfl
  | true => rw [h.pulseWidth hv]

theorem Regs.SameSeen.minuteBoundary (h : r.SameSeen q) (c : Config) (ts : Ts) (lead : Bool) :
    minuteBoundary c ts lead r = minuteBoundary c ts lead q := by
  unfold Machine.minuteBoundary
  rw [← h.lastLeadValid]
  cases hv : r.lastLeadValid with
  | false => simp
  | true => rw [h.interval hv]

/-! ### Equal writes on both sides keep the relation -/

theorem Regs.SameSeen.withBuffer (h : r.SameSeen q) (f : Frame) (n : BitVec 6) :
    { r with frame := f, count := n }.SameSeen { q with frame := f, count := n } :=
  { h with frame := fun _ => rfl, count := fun _ => rfl }

theorem Regs.SameSeen.withOutcome (h : r.SameSeen q) (o : FrameOutcome) :
    { r with lastOutcome := o }.SameSeen { q with lastOutcome := o } := by
  obtain ⟨result, full, overrun, -⟩ := h.observable
  exact { h with observable := ⟨result, full, overrun, rfl⟩ }

/-- A state in which the frame buffer is read may be entered only with equal buffers. -/
theorem Regs.SameSeen.withState (h : r.SameSeen q) {st : DecoderState} (hst : st ≠ .powerOnDelay)
    (hb : st = .receivingOne ∨ st = .receivingZero → r.frame = q.frame ∧ r.count = q.count) :
    { r with state := st }.SameSeen { q with state := st } :=
  { h with
    state := rfl
    podRefValid := fun hs => absurd hs hst
    podRefTs := fun hs => absurd hs hst
    frame := fun hs => (hb hs).1
    count := fun hs => (hb hs).2 }

/-- `SyncSearch` may be entered with any buffers. -/
theorem Regs.SameSeen.toSyncSearch (h : r.SameSeen q) :
    { r with state := .syncSearch }.SameSeen { q with state := .syncSearch } :=
  h.withState (by decide) (fun hs => by simp at hs)

theorem Regs.SameSeen.commitFrame (h : r.SameSeen q) (f : Frame) : (commitFrame f r).SameSeen (commitFrame f q) := by
  obtain ⟨-, hf, ho, -⟩ := h.observable
  exact { h with observable := ⟨⟨rfl, rfl, rfl, rfl, rfl, rfl⟩, rfl, by simp [hf, ho], rfl⟩ }

/-! ### The shared operations keep the relation -/

theorem Regs.SameSeen.decodeAndCommit (h : r.SameSeen q) (hf : r.frame = q.frame) (c : Config) :
    (decodeAndCommit c r).SameSeen (decodeAndCommit c q) := by
  cases hc : failedCheck c r.frame with
  | some code =>
    rw [decodeAndCommit_failed rfl hc, decodeAndCommit_failed hf.symm hc]
    exact h.withOutcome code
  | none =>
    rw [decodeAndCommit_passed rfl hc, decodeAndCommit_passed hf.symm hc]
    exact h.commitFrame r.frame

theorem Regs.SameSeen.syncEval (h : r.SameSeen q) (c : Config) (ts : Ts) (lead : Bool) :
    (syncEval c ts lead r).SameSeen (syncEval c ts lead q) := by
  have hm := h.minuteBoundary c ts lead
  cases hb : Machine.minuteBoundary c ts lead r with
  | true =>
    rw [syncEval_boundary hb, syncEval_boundary (hm ▸ hb)]
    exact (h.withBuffer 0 0).withState (by decide) (fun _ => ⟨rfl, rfl⟩)
  | false =>
    rw [syncEval_other hb, syncEval_other (hm ▸ hb)]
    exact h

theorem Regs.SameSeen.resync (h : r.SameSeen q) (c : Config) (code : FrameOutcome) (ts : Ts) (lead : Bool) :
    (resync c code ts lead r).SameSeen (resync c code ts lead q) :=
  ((h.withBuffer 0 0).withOutcome code).toSyncSearch.syncEval c ts lead

theorem Regs.SameSeen.setPodReference (h : r.SameSeen q) (hs : r.state = .powerOnDelay) (ts : Ts) :
    (setPodReference ts r).SameSeen (setPodReference ts q) := by
  unfold Machine.setPodReference
  rw [← h.podRefValid hs]
  split
  · exact h
  · exact { h with podRefValid := fun _ => rfl, podRefTs := fun _ _ => rfl }

theorem Regs.SameSeen.recordEdge (h : r.SameSeen q) (ts : Ts) (lead : Bool) :
    (recordEdge ts lead r).SameSeen (recordEdge ts lead q) := by
  unfold Machine.recordEdge
  rw [← h.state]
  split
  · exact { h with
      state := rfl, lastEdgeValid := rfl, lastEdgeTs := fun _ => rfl, lastLeadValid := rfl, lastLeadTs := fun _ => rfl }
  · exact { h with state := rfl, lastEdgeValid := rfl, lastEdgeTs := fun _ => rfl }

/-! ### The state's rules keep the relation -/

/-- Once the reference is set both sides have the same one, so they find the same delay (40_edge.md R106). -/
theorem Regs.SameSeen.edgePowerOnDelay (h : r.SameSeen q) (hs : r.state = .powerOnDelay) (c : Config) (ts : Ts)
    (lead : Bool) : (edgePowerOnDelay c ts lead r).SameSeen (edgePowerOnDelay c ts lead q) := by
  have hp := h.setPodReference hs ts
  have hts := hp.podRefTs ((setPodReference_state ts r).trans hs) (setPodReference_podRefValid ts r)
  unfold Machine.edgePowerOnDelay delayPassed podElapsed
  rw [hts]
  split
  · exact hp.toSyncSearch.syncEval c ts lead
  · exact hp

/-- In `ReceivingOne` both sides have the same buffer, so they store the same bit and decode the same frame. -/
theorem Regs.SameSeen.receiveBit {r' : Regs} {c : Config} {b : Bool} (h : r.SameSeen q) (hs : r.state = .receivingOne)
    (hr : receiveBit c b r = .ok r') : ∃ q', receiveBit c b q = .ok q' ∧ r'.SameSeen q' := by
  have hf := h.frame (.inl hs)
  have hn := h.count (.inl hs)
  by_cases hlt : r.count.toNat < 59
  · rw [receiveBit_of_lt hlt] at hr
    refine ⟨_, receiveBit_of_lt (hn ▸ hlt), ?_⟩
    rw [← Except.ok.inj hr, ← hf, ← hn]
    have hpushed := h.withBuffer (setFrameBit r.frame r.count.toNat b) (r.count + 1)
    split
    · exact (hpushed.decodeAndCommit rfl c).toSyncSearch
    · exact hpushed.withState (by decide) (fun _ => ⟨rfl, rfl⟩)
  · rw [receiveBit_of_ge hlt] at hr
    cases hr

/-- In `ReceivingOne` both sides measure the same width from the last edge, which is valid there (10_state.md R31). -/
theorem Regs.SameSeen.edgeReceivingOne {r' : Regs} {c : Config} {ts : Ts} {lead : Bool} (h : r.SameSeen q)
    (hs : r.state = .receivingOne) (hv : r.lastEdgeValid = true) (hr : edgeReceivingOne c ts lead r = .ok r') :
    ∃ q', edgeReceivingOne c ts lead q = .ok q' ∧ r'.SameSeen q' := by
  unfold Machine.edgeReceivingOne at hr ⊢
  rw [← h.pulseWidth hv]
  cases lead with
  | true =>
    rw [← Except.ok.inj hr]
    exact ⟨_, rfl, h.resync c _ ts _⟩
  | false =>
    rw [if_neg Bool.false_ne_true] at hr ⊢
    cases hc : classify c (Machine.pulseWidth c ts r) with
    | none =>
      rw [hc] at hr
      rw [← Except.ok.inj hr]
      exact ⟨_, rfl, h.resync c _ ts _⟩
    | some b =>
      rw [hc] at hr
      exact h.receiveBit hs hr

/-- In `ReceivingZero` both sides measure the same interval from the last leading edge, which is valid there (10_state.md
R31). -/
theorem Regs.SameSeen.edgeReceivingZero (h : r.SameSeen q) (hs : r.state = .receivingZero)
    (hv : r.lastLeadValid = true) (c : Config) (ts : Ts) (lead : Bool) :
    (edgeReceivingZero c ts lead r).SameSeen (edgeReceivingZero c ts lead q) := by
  unfold Machine.edgeReceivingZero
  rw [← h.interval hv]
  split
  · exact h.resync c _ ts lead
  · split
    · exact h.withState (by decide) (fun _ => ⟨h.frame (.inr hs), h.count (.inr hs)⟩)
    · split
      · exact h.resync c _ ts lead
      · exact h.resync c _ ts lead

/-- The dispatch on `STATE`, which both sides share. -/
theorem Regs.SameSeen.edgeByState {r' : Regs} {c : Config} {ts : Ts} {lead : Bool} (h : r.SameSeen q) (hi : r.Inv c)
    (hr : edgeByState c ts lead r = .ok r') : ∃ q', edgeByState c ts lead q = .ok q' ∧ r'.SameSeen q' := by
  unfold Machine.edgeByState at hr ⊢
  rw [← h.state]
  split at hr
  · next hs =>
    rw [← Except.ok.inj hr]
    exact ⟨_, rfl, h.edgePowerOnDelay hs c ts lead⟩
  · rw [← Except.ok.inj hr]
    exact ⟨_, rfl, h.syncEval c ts lead⟩
  · next hs => exact h.edgeReceivingOne hs (hi.receiving_edge_valid (.inl hs)) hr
  · next hs =>
    rw [← Except.ok.inj hr]
    exact ⟨_, rfl, h.edgeReceivingZero hs (hi.receiving_lead_valid (.inr hs)) c ts lead⟩

end

/-! ### Operations and runs keep the relation -/

/-- An `EDGE` is ignored on both sides or accepted on both. -/
theorem SameButHidden.of_execEdge {ts : Ts} {lvl : Bool} {s t u : State} (h : SameButHidden s t) (hs : s.Inv)
    (hu : execEdge ts lvl s = .next u) : ∃ v, execEdge ts lvl t = .next v ∧ SameButHidden u v := by
  obtain ⟨q, rfl, hq⟩ := (sameButHidden_iff s t).mp h
  rcases execEdge_cases hu with ⟨hd, rfl⟩ | ⟨hd, r', hr, rfl⟩
  · exact ⟨_, execEdge_ignored (hq.debounced _ _ ▸ hd), h⟩
  · obtain ⟨q', hq', hseen⟩ := hq.edgeByState hs hr
    exact ⟨_, execEdge_accepted (hq.debounced _ _ ▸ hd) hq',
      (sameButHidden_iff _ _).mpr ⟨_, rfl, hseen.recordEdge ts _⟩⟩

/-- `TAKE` returns the same word on both sides, since the word shows observable registers alone (10_state.md R41). -/
theorem SameButHidden.of_execTake {s t u : State} (h : SameButHidden s t) (hu : execTake s = .next u) :
    ∃ v, execTake t = .next v ∧ SameButHidden u v := by
  obtain ⟨q, rfl, hq⟩ := (sameButHidden_iff s t).mp h
  obtain ⟨hr, -, -, ho⟩ := hq.observable
  refine ⟨_, rfl, (sameButHidden_iff _ _).mpr ⟨{ q with full := false, overrun := false }, ?_, ?_⟩⟩
  · rw [← Host.Outcome.next.inj hu, (responseShowsExactlyTheObservable s.regs q).mpr hq.observable]
    rfl
  · rw [← Host.Outcome.next.inj hu]
    exact { hq with observable := ⟨hr, rfl, rfl, ho⟩ }

/-- Every operation that answers on one side answers on the other, and the states after it are again related. -/
theorem SameButHidden.of_exec {i : Instr} {s t u : State} (h : SameButHidden s t) (hs : s.Inv)
    (hu : exec i s = .next u) : ∃ v, exec i t = .next v ∧ SameButHidden u v := by
  cases i with
  | nop =>
    rw [← Host.Outcome.next.inj hu]
    exact ⟨t, rfl, h⟩
  | edge ts lvl => exact h.of_execEdge hs hu
  | take => exact h.of_execTake hu
  | reset =>
    obtain ⟨q, rfl, -⟩ := (sameButHidden_iff s t).mp h
    rw [← Host.Outcome.next.inj hu]
    exact ⟨_, rfl, (sameButHidden_iff _ _).mpr ⟨_, rfl, .refl _⟩⟩

/-- Every run that answers on one side answers on the other: each operation keeps the relation, and the invariant under
which the next one keeps it. -/
theorem SameButHidden.of_execAll {is : List Instr} {s t u : State} (h : SameButHidden s t) (hs : s.Inv)
    (hw : ∀ i ∈ is, i.WellFormed s.cfg) (hu : execAll is s = .next u) :
    ∃ v, execAll is t = .next v ∧ SameButHidden u v := by
  induction is generalizing s t with
  | nil =>
    rw [← Host.Outcome.next.inj hu]
    exact ⟨t, rfl, h⟩
  | cons i is ih =>
    obtain ⟨s1, hs1, hu1⟩ := execAll_cons_cases hu
    obtain ⟨t1, ht1, h1⟩ := h.of_exec hs hs1
    have hinv := hs.of_exec (hw i List.mem_cons_self) hs1
    have hrest : ∀ j ∈ is, j.WellFormed s1.cfg := fun j hj => exec_cfg hs1 ▸ hw j (List.mem_cons_of_mem i hj)
    obtain ⟨v, hv, huv⟩ := ih h1 hinv hrest hu1
    exact ⟨v, by rw [execAll, ht1]; exact hv, huv⟩

/-- Settles O54: the simulation along the run; the invariant of the first state is enough. -/
theorem unreadRegistersAreInvisible : Obligations.UnreadRegistersAreInvisible :=
  fun _ _ _ _ hs _ hw h hu => h.of_execAll hs hw hu

end Sys2Proof.Machine
end

section
/-! PROOFS for spec 20_memory.md R54: the result of a commit waits for its `TAKE`. -/

namespace Sys2Proof.Machine

theorem Regs.SameResult.refl (r : Regs) : r.SameResult r := ⟨rfl, rfl, rfl, rfl, rfl, rfl⟩

theorem Regs.SameResult.trans {r q p : Regs} (h : r.SameResult q) (h' : q.SameResult p) : r.SameResult p := by
  simp_all [Regs.SameResult]

/-- An operation that commits pushes a bit, so it is neither a `TAKE` nor a `RESET` (41_frame_decode.md R141). -/
theorem ne_take_and_ne_reset_of_commits {i : Instr} {s : State} (hc : commitsFrame i s = true) :
    i ≠ .take ∧ i ≠ .reset := by
  constructor
  · rintro rfl
    simp [commitsFrame_of_none (pushedBit_take s)] at hc
  · rintro rfl
    simp [commitsFrame_of_none (pushedBit_reset s)] at hc

/-- An operation that commits nothing and is no `RESET` leaves the result register (10_state.md R36). -/
theorem exec_sameResult {i : Instr} {s t : State} (h : exec i s = .next t) (hc : commitsFrame i s = false)
    (hr : i ≠ .reset) : t.regs.SameResult s.regs := by
  rcases exec_cases h with ⟨-, rfl⟩ | ⟨ts, lvl, rfl, he⟩ | ⟨-, rfl⟩ | ⟨rfl, -⟩
  · exact .refl _
  · cases exec_edge_handOff he with
    | written _ commits _ _ _ _ => simp [hc] at commits
    | kept _ result _ _ => exact result
  · exact .refl _
  · exact absurd rfl hr

/-- Without a commit and without a `RESET` a whole sequence of operations leaves the result register. -/
theorem execAll_sameResult {is : List Instr} {s t : State} (h : execAll is s = .next t)
    (hc : countAlong commitsFrame is s = 0) (hr : .reset ∉ is) : t.regs.SameResult s.regs := by
  induction is generalizing s with
  | nil =>
    rw [← Host.Outcome.next.inj h]
    exact .refl _
  | cons i is ih =>
    obtain ⟨u, hu, ht⟩ := execAll_cons_cases h
    rw [countAlong_cons hu, Nat.add_eq_zero_iff, Bool.toNat_eq_zero] at hc
    rw [List.mem_cons, not_or] at hr
    obtain ⟨first, rest⟩ := hc
    exact (ih ht rest hr.2).trans (exec_sameResult hu first (Ne.symm hr.1))

/-- Settles O23: the commit sets `FULL`, which the operations after it keep (`full_overrun_along`), as they keep the
result register (`execAll_sameResult`). -/
theorem committedResultStaysUntilTaken : Obligations.CommittedResultStaysUntilTaken := by
  intro i is s t u hc ht hi hr hu
  obtain ⟨hti, hri⟩ := ne_take_and_ne_reset_of_commits hc
  have full : t.regs.full = true := by simp [(exec_full_overrun ht hti hri).1, hc]
  refine ⟨(full_overrun_along hi hr hu).1.mpr ?_, fun h0 => execAll_sameResult hu h0 hr⟩
  rw [full]
  exact Nat.le_add_right 1 _

end Sys2Proof.Machine
end

section
/-! PROOFS for spec 20_memory.md R52 and R56: every legal operation completes in one step. -/

namespace Sys2Proof.Machine

/-- An operation faults only on a bit push at 59 or above (log 5). -/
theorem exec_fault {i : Instr} {s : State} {e : Fault} (h : exec i s = .fault e) :
    s.regs.state = .receivingOne ∧ ¬s.regs.count.toNat < 59 := by
  cases i with
  | edge ts lvl =>
    simp only [exec, execEdge] at h
    split at h
    · cases h
    · split at h
      · next hf => exact edgeByState_fault hf
      · cases h
  | nop => cases h
  | take => cases h
  | reset => cases h

/-- Under the invariant every operation completes: `COUNT` is at most 58 in reception (10_state.md R35). -/
theorem State.Inv.exec_completes {s : State} (hs : s.Inv) (i : Instr) : ∃ t, exec i s = .next t := by
  cases h : exec i s with
  | next t => exact ⟨t, rfl⟩
  | fault e =>
    obtain ⟨hr, hc⟩ := exec_fault h
    have := hs.receiving_count (.inl hr)
    omega
  | refused e => exact absurd h (exec_not_refused i s e)

/-- Settles O49: the step performs the fetched operation, which completes in the state in which its agent is served. -/
theorem everyLegalOperationCompletes : Obligations.EveryLegalOperationCompletes := by
  intro s a turns w rest i hs hw hsched hq hd
  have hf : fetch s = some (w, serve s a turns rest) := fetch_of_queued hsched hq
  obtain ⟨t, ht⟩ := (hs.of_fetch hf).exec_completes i
  have hd : decode (serve s a turns rest).cfg w = .ok i := by rw [serve_cfg, hd]
  exact ⟨t, (step_of_decoded hw hf hd).trans ht, ht⟩

end Sys2Proof.Machine
end

section
/-! PROOFS for spec 20_memory.md R53 and 00_scope.md R10: a run of steps is the sequence of the operations that the agents
deliver in their turns. The run and the sequence pass through states that differ only in what concerns the agents, which
no operation reads. -/

namespace Sys2Proof.Machine

/-! ### What no operation reads -/

/-- Two states differ at most in what concerns the agents (assumption log 2): the words they have still to deliver, the
schedule, the issuer, and to whom each response went. -/
structure SameButAgents (s t : State) : Prop where
  cfg : s.cfg = t.cfg
  regs : s.regs = t.regs
  words : s.responses.map Response.word = t.responses.map Response.word

theorem SameButAgents.refl (s : State) : SameButAgents s s := ⟨rfl, rfl, rfl⟩

theorem SameButAgents.symm {s t : State} (h : SameButAgents s t) : SameButAgents t s :=
  ⟨h.cfg.symm, h.regs.symm, h.words.symm⟩

theorem SameButAgents.trans {s t u : State} (h : SameButAgents s t) (h' : SameButAgents t u) : SameButAgents s u :=
  ⟨h.cfg.trans h'.cfg, h.regs.trans h'.regs, h.words.trans h'.words⟩

/-- Every operation that answers on one side answers on the other, alike: no operation reads who issued it or what is
issued later (60_exceptions.md R210). -/
theorem SameButAgents.of_exec {i : Instr} {s t u : State} (h : SameButAgents s t) (hu : exec i s = .next u) :
    ∃ v, exec i t = .next v ∧ SameButAgents u v := by
  obtain ⟨cfg, regs, words⟩ := h
  rcases exec_cases hu with ⟨rfl, rfl⟩ | ⟨ts, lvl, rfl, he⟩ | ⟨rfl, rfl⟩ | ⟨rfl, rfl⟩
  · exact ⟨t, rfl, cfg, regs, words⟩
  · rcases execEdge_cases he with ⟨hd, rfl⟩ | ⟨hd, q, hq, rfl⟩
    · rw [cfg, regs] at hd
      exact ⟨t, execEdge_ignored hd, cfg, regs, words⟩
    · rw [cfg, regs] at hd hq
      exact ⟨_, execEdge_accepted hd hq, cfg, by rw [cfg], words⟩
  · exact ⟨_, rfl, cfg, by simp [regs], by simp [regs, words]⟩
  · exact ⟨_, rfl, cfg, rfl, words⟩

/-- Every sequence of operations that answers on one side answers on the other, alike. -/
theorem SameButAgents.of_execAll {is : List Instr} {s t u : State} (h : SameButAgents s t)
    (hu : execAll is s = .next u) : ∃ v, execAll is t = .next v ∧ SameButAgents u v := by
  induction is generalizing s t with
  | nil =>
    rw [← Host.Outcome.next.inj hu]
    exact ⟨t, rfl, h⟩
  | cons i is ih =>
    obtain ⟨s1, hs1, hu1⟩ := execAll_cons_cases hu
    obtain ⟨t1, ht1, h1⟩ := h.of_exec hs1
    obtain ⟨v, hv, huv⟩ := ih h1 hu1
    exact ⟨v, by rw [execAll, ht1]; exact hv, huv⟩

/-! ### One turn -/

/-- The step from `s` to `t` uses the turn of `a`, who delivers the word `w` of the operation `i`, and performs it. -/
structure Performed (s t : State) (a : Agent) (w : EventWord) (i : Instr) : Prop where
  schedule : s.schedule = a :: t.schedule
  cfg : t.cfg = s.cfg
  queues : ∀ b, queueOf t b = (queueOf s b).drop (if a = b then 1 else 0)
  delivered : ∀ turns, deliveredWords (a :: turns) s = w :: deliveredWords turns t
  decoded : decode s.cfg w = .ok i
  effect : ∃ u, exec i s = .next u ∧ SameButAgents t u
  answered : t.responses.map Response.agent = s.responses.map Response.agent ++ if i = .take then [a] else []

/-- Performing a fetched word that decodes uses the turn of the agent that delivered it. -/
theorem performed_of_fetch {s s1 t : State} {w : EventWord} {i : Instr} (hf : fetch s = some (w, s1))
    (hd : decode s1.cfg w = .ok i) (he : exec i s1 = .next t) : ∃ a, Performed s t a w i := by
  obtain ⟨a, _, hs, rfl, rfl, regs, cfg, resp, queues, words⟩ := fetch_delivered hf
  obtain ⟨tcfg, tsched, -, tqueues, silent, takes⟩ := operationsLeaveAgentsAndConfiguration i s1 t he
  refine
    ⟨s1.issuer,
      { schedule := by rw [hs, tsched]
        cfg := tcfg.trans cfg
        queues := fun b => (tqueues b).trans (queues b)
        delivered := fun turns => by rw [words, deliveredWords_congr turns tqueues]
        decoded := cfg ▸ hd
        effect := SameButAgents.of_exec ⟨cfg, regs, congrArg _ resp⟩ he
        answered := ?_ }⟩
  by_cases hi : i = .take
  · obtain ⟨v, hv⟩ := takes hi
    simp [hi, hv, resp]
  · simp [hi, silent hi, resp]

/-- A step that answers is idle, with no turn left, or uses one turn. -/
theorem step_performed {s t : State} (h : step s = .next t) :
    (s.schedule = [] ∧ t = s) ∨ ∃ a w i, Performed s t a w i := by
  obtain ⟨-, ⟨hf, rfl⟩ | ⟨w, s1, i, hf, hd, he⟩⟩ := step_cases h
  · exact .inl ⟨fetch_none hf, rfl⟩
  · obtain ⟨a, ha⟩ := performed_of_fetch hf hd he
    exact .inr ⟨a, w, i, ha⟩

/-! ### Runs, turn by turn -/

/-- A run of steps that answers, as a sequence of turns used and of idle steps when none is left. -/
inductive ServedRun : Nat → State → State → Prop
  | done (s : State) : ServedRun 0 s s
  | idle {k : Nat} {s t : State} (noTurn : s.schedule = []) (rest : ServedRun k s t) : ServedRun (k + 1) s t
  | perform {k : Nat} {s u t : State} {a : Agent} {w : EventWord} {i : Instr} (first : Performed s u a w i)
      (rest : ServedRun k u t) : ServedRun (k + 1) s t

/-- The run of the machine is one. -/
theorem servedRun_of_run {k : Nat} {s t : State} (h : Sys2Proof.core.run k s = .next t) : ServedRun k s t := by
  induction k generalizing s with
  | zero =>
    obtain rfl : s = t := Host.Outcome.next.inj h
    exact .done s
  | succ k ih =>
    obtain ⟨u, hu, ht⟩ := run_succ_cases h
    rcases step_performed hu with ⟨hs, rfl⟩ | ⟨a, w, i, first⟩
    · exact .idle hs (ih ht)
    · exact .perform first (ih ht)

/-- A run of `k` steps uses the first `k` turns. -/
theorem ServedRun.schedule {k : Nat} {s t : State} (h : ServedRun k s t) : t.schedule = s.schedule.drop k := by
  induction h with
  | done s => rfl
  | idle noTurn _ ih => simpa [noTurn] using ih
  | perform first _ ih => rw [ih, first.schedule, List.drop_succ_cons]

/-- A run takes from each agent's queue as many first words as the agent had turns. -/
theorem ServedRun.queues {k : Nat} {s t : State} (h : ServedRun k s t) (b : Agent) :
    queueOf t b = (queueOf s b).drop ((s.schedule.take k).count b) := by
  induction h with
  | done s => rfl
  | idle noTurn _ ih => simpa [noTurn] using ih
  | perform first _ ih =>
    rw [ih, first.queues, first.schedule, List.take_succ_cons, List.count_cons, List.drop_drop, Nat.add_comm]
    simp only [beq_iff_eq]

/-- A run performs the words delivered in its turns, in their order, and answers each `TAKE` to the agent whose turn it
was. -/
theorem ServedRun.operations {k : Nat} {s t : State} (h : ServedRun k s t) :
    ∃ is u, (deliveredWords (s.schedule.take k) s).map (decode s.cfg) = is.map .ok ∧ execAll is s = .next u ∧
      SameButAgents t u ∧
      t.responses.map Response.agent =
        s.responses.map Response.agent ++ (((s.schedule.take k).zip is).filter (·.2 = .take)).map (·.1) := by
  induction h with
  | done s => exact ⟨[], s, rfl, rfl, .refl s, by simp⟩
  | idle noTurn _ ih => simpa [noTurn] using ih
  | @perform k s u t a w i first _ ih =>
    obtain ⟨is, v, words, hv, same, agents⟩ := ih
    obtain ⟨u', hu', effect⟩ := first.effect
    obtain ⟨v', hv', same'⟩ := effect.of_execAll hv
    refine ⟨i :: is, v', ?_, by rw [execAll, hu']; exact hv', same.trans same', ?_⟩
    · rw [first.schedule, List.take_succ_cons, first.delivered, List.map_cons, List.map_cons, first.decoded, ← words,
        first.cfg]
    · rw [agents, first.answered, first.schedule, List.take_succ_cons, List.zip_cons_cons, List.filter_cons]
      by_cases hi : i = .take <;> simp [hi]

/-- Settles O11: the run turn by turn, with the operations it performs. -/
theorem agentsAreServedInTheirOwnOrder : Obligations.AgentsAreServedInTheirOwnOrder := by
  intro k s t h
  have run := servedRun_of_run h
  obtain ⟨is, u, words, hu, same, agents⟩ := run.operations
  exact ⟨run.schedule, run.queues, is, u, words, hu, same.regs, same.words, agents⟩

/-! ### From the operations to the run -/

/-- With no turn left a step is idle (40_edge.md R115). -/
theorem step_of_no_turn {s : State} (hw : s.cfg.WellFormed) (hs : s.schedule = []) : step s = .next s := by
  simp only [step, if_pos hw, fetch, hs]

/-- When a turn is left, the first delivered word is fetched; if it decodes to an operation that answers, the step
performs it. -/
theorem step_of_first_delivered {s u : State} {a : Agent} {turns l : List Agent} {is : List Instr} {i : Instr}
    (hw : s.cfg.WellFormed) (hs : s.schedule = a :: turns)
    (hd : (deliveredWords (a :: l) s).map (decode s.cfg) = (i :: is).map .ok) (hu : exec i s = .next u) :
    ∃ t w, step s = .next t ∧ Performed s t a w i := by
  cases hf : fetch s with
  | none => simp [fetch_none hf] at hs
  | some p =>
    obtain ⟨w, s1⟩ := p
    obtain ⟨b, _, hb, -, -, regs, cfg, resp, -, words⟩ := fetch_delivered hf
    obtain ⟨rfl, -⟩ := List.cons.inj (hs.symm.trans hb)
    rw [words] at hd
    have hd : decode s1.cfg w = .ok i := cfg ▸ (List.cons.inj hd).1
    have same : SameButAgents s s1 := ⟨cfg.symm, regs.symm, by rw [resp]⟩
    obtain ⟨t, ht, -⟩ := same.of_exec hu
    obtain ⟨c, first⟩ := performed_of_fetch hf hd ht
    obtain ⟨rfl, -⟩ := List.cons.inj (hs.symm.trans first.schedule)
    exact ⟨t, w, (step_of_decoded hw hf hd).trans ht, first⟩

/-- Every turn delivers one word. -/
theorem length_deliveredWords (turns : List Agent) (s : State) : (deliveredWords turns s).length = turns.length := by
  induction turns generalizing s with
  | nil => rfl
  | cons a turns ih =>
    unfold deliveredWords
    split <;> simp [ih]

/-- Legal words whose operations answer are performed by the run of as many steps. -/
theorem run_of_delivered {k : Nat} {s u : State} {is : List Instr} (hw : s.cfg.WellFormed)
    (hd : (deliveredWords (s.schedule.take k) s).map (decode s.cfg) = is.map .ok) (hu : execAll is s = .next u) :
    ∃ t, Sys2Proof.core.run k s = .next t ∧ SameButAgents u t := by
  induction k generalizing s u is with
  | zero =>
    obtain rfl : is = [] := by simpa [deliveredWords] using hd.symm
    obtain rfl : s = u := Host.Outcome.next.inj hu
    exact ⟨s, rfl, .refl s⟩
  | succ k ih =>
    cases hs : s.schedule with
    | nil =>
      rw [run_succ_next (step_of_no_turn hw hs)]
      exact ih hw (by simpa [hs] using hd) hu
    | cons a turns =>
      rw [hs, List.take_succ_cons] at hd
      cases is with
      | nil => simpa [length_deliveredWords] using congrArg List.length hd
      | cons i is =>
        obtain ⟨v, hv, hu⟩ := execAll_cons_cases hu
        obtain ⟨t, w, ht, first⟩ := step_of_first_delivered hw hs hd hv
        obtain ⟨v', hv', effect⟩ := first.effect
        obtain rfl : v = v' := Host.Outcome.next.inj (hv.symm.trans hv')
        obtain ⟨u', hu', same⟩ := effect.symm.of_execAll hu
        obtain ⟨-, rfl⟩ := List.cons.inj (hs.symm.trans first.schedule)
        rw [first.delivered, ← first.cfg] at hd
        obtain ⟨x, hx, same'⟩ := ih (first.cfg ▸ hw) (List.cons.inj hd).2 hu'
        exact ⟨x, (run_succ_next ht).trans hx, same.trans same'⟩

/-- Settles O56: the run reaches, by `run_of_delivered`, a state that differs from the sequence's only in what concerns the
agents. -/
theorem deliveredOperationsArePerformed : Obligations.DeliveredOperationsArePerformed := by
  intro k s u is hw hd hu
  obtain ⟨t, ht, same⟩ := run_of_delivered hw hd hu
  exact ⟨t, ht, same.regs.symm, same.words.symm⟩

end Sys2Proof.Machine
end

section
/-! PROOFS for spec 30_encoding.md R70 to R77: a word is determined by its fields, the encoder writes the fields that the
decoder reads, and a word decodes exactly when the bits its operation does not use are 0. -/

namespace Sys2Proof.Machine

/-! ### The fields of a word (30_encoding.md R70) -/

/-- Two words agree in a field exactly when they agree in its bits. -/
theorem extractLsb_eq_iff {v w : EventWord} {hi lo : Nat} (h : lo ≤ hi) :
    v.extractLsb hi lo = w.extractLsb hi lo ↔ ∀ k, lo ≤ k → k ≤ hi → v.getLsbD k = w.getLsbD k := by
  constructor
  · intro e k hlo hhi
    have hk := congrArg (·.getLsbD (k - lo)) e
    simpa [BitVec.getLsbD_extractLsb, show k - lo < hi - lo + 1 by omega, Nat.add_sub_cancel' hlo] using hk
  · intro e
    apply BitVec.eq_of_getLsbD_eq
    intro j hj
    simp only [BitVec.getLsbD_extractLsb, hj, e (lo + j) (by omega) (by omega)]

/-- A field is 0 exactly when all its bits are. -/
theorem extractLsb_eq_zero_iff {w : EventWord} {hi lo : Nat} (h : lo ≤ hi) :
    w.extractLsb hi lo = 0#(hi - lo + 1) ↔ ∀ k, lo ≤ k → k ≤ hi → w.getLsbD k = false := by
  have hz : (0#40).extractLsb hi lo = 0#(hi - lo + 1) := by simp [BitVec.extractLsb]
  rw [← hz, extractLsb_eq_iff h]
  simp

/-- A word is determined by its `OP` and its operand bits. -/
theorem eq_of_operandField_eq {v w : EventWord} (hop : opField v = opField w)
    (hoperand : operandField v = operandField w) : v = w := by
  have low := (extractLsb_eq_iff (by decide)).mp hop
  have high := (extractLsb_eq_iff (by decide)).mp hoperand
  apply BitVec.eq_of_getLsbD_eq
  intro k hk
  by_cases h2 : k < 2
  · exact low k (by omega) (by omega)
  · exact high k (by omega) (by omega)

/-- A word is determined by its four fields. -/
theorem eq_of_fields_eq {v w : EventWord} (hop : opField v = opField w) (hlvl : lvlField v = lvlField w)
    (hres : reservedField v = reservedField w) (hts : tsField v = tsField w) : v = w := by
  have res := (extractLsb_eq_iff (by decide)).mp hres
  have ts := (extractLsb_eq_iff (by decide)).mp hts
  apply eq_of_operandField_eq hop
  refine (extractLsb_eq_iff (by decide)).mpr fun k h2 hk => ?_
  by_cases hk2 : k = 2
  · rw [hk2]; exact hlvl
  · by_cases h8 : k < 8
    · exact res k (by omega) (by omega)
    · exact ts k (by omega) hk

/-- `OP` is the remainder of the word by 4. -/
theorem opField_eq_one_iff (w : EventWord) : opField w = 1#2 ↔ w.toNat % 4 = 1 := by
  rw [← BitVec.toNat_inj]
  simp [opField]

/-- `TS` fits in n bits exactly when a shift by n leaves nothing (30_encoding.md R72). -/
theorem ushiftRight_eq_zero_iff (ts : Ts) (n : Nat) : ts >>> n = 0#32 ↔ ts.toNat < 2 ^ n := by
  rw [← BitVec.toNat_inj, BitVec.toNat_ushiftRight, Nat.shiftRight_eq_div_pow]
  exact Nat.div_eq_zero_iff_lt (Nat.two_pow_pos n)

/-- `TS` fits in n bits exactly when the word has no bit at position 8 + n or above (30_encoding.md R72). -/
theorem tsField_ushiftRight_eq_zero_iff (w : EventWord) (n : Nat) :
    tsField w >>> n = 0#32 ↔ ∀ k, 8 + n ≤ k → k ≤ 39 → w.getLsbD k = false := by
  have bit (j : Nat) : (tsField w >>> n).getLsbD j = (decide (n + j < 32) && w.getLsbD (8 + (n + j))) := by
    simp only [tsField, BitVec.getLsbD_ushiftRight, BitVec.getLsbD_extractLsb]
  constructor
  · intro h k hlo hhi
    have hk := bit (k - (8 + n))
    rw [h, show 8 + (n + (k - (8 + n))) = k by omega] at hk
    simpa [show n + (k - (8 + n)) < 32 by omega] using hk
  · intro h
    apply BitVec.eq_of_getLsbD_eq
    intro j _
    rw [bit]
    by_cases hj : n + j < 32
    · simp [h (8 + (n + j)) (by omega) (by omega)]
    · simp [hj]

/-! ### The fields of an operation's word -/

/-- Every word has its operation's code (30_encoding.md R71). -/
theorem opField_encode (i : Instr) : opField (encode i) = opCode i := by
  cases i with
  | nop => exact Laws.FixedBits.nop.1
  | edge ts lvl => exact (Laws.FixedBits.edge ts lvl).1
  | take => exact Laws.FixedBits.take.1
  | reset => exact Laws.FixedBits.reset.1

/-- The timestamp stands in `TS` (30_encoding.md R72). -/
theorem tsField_encode_edge (ts : Ts) (lvl : Bool) : tsField (encode (.edge ts lvl)) = ts := by
  apply BitVec.eq_of_getLsbD_eq
  intro j hj
  simp only [tsField, BitVec.getLsbD_extractLsb, getLsbD_encode_edge]
  simp [hj, show ¬8 + j < 2 by omega, show ¬8 + j = 2 by omega]

/-- The level stands in `LVL` (30_encoding.md R72). -/
theorem lvlField_encode_edge (ts : Ts) (lvl : Bool) : lvlField (encode (.edge ts lvl)) = lvl :=
  getLsbD_encode_edge ts lvl 2

/-- Only an `EDGE` has operand bits (30_encoding.md R75). -/
theorem operandField_encode {i : Instr} (h : opCode i ≠ 1#2) : operandField (encode i) = 0#38 := by
  cases i with
  | nop => rfl
  | edge ts lvl => exact absurd rfl h
  | take => rfl
  | reset => rfl

/-! ### The decoder, branch by branch (30_encoding.md R77) -/

/-- A legal `EDGE` word. -/
theorem decode_of_edge_op {c : Config} {w : EventWord} (hop : opField w = 1#2) (hres : reservedField w = 0#5)
    (hts : tsField w >>> c.tsWidth = 0#32) : decode c w = .ok (.edge (tsField w) (lvlField w)) := by
  simp [decode, hop, hres, hts]

/-- A legal word of another operation. -/
theorem decode_of_operandless {c : Config} {w : EventWord} (hop : opField w ≠ 1#2) (h : operandField w = 0#38) :
    ∃ i, decode c w = .ok i := by
  simp only [decode, if_neg hop, h, ne_eq, not_true, if_false]
  split_ifs <;> exact ⟨_, rfl⟩

/-- Every word that decodes is a legal `EDGE` word, or the code of another operation with nothing beside it. -/
theorem decode_cases {c : Config} {w : EventWord} {i : Instr} (h : decode c w = .ok i) :
    (opField w = 1#2 ∧ reservedField w = 0#5 ∧ tsField w >>> c.tsWidth = 0#32 ∧ i = .edge (tsField w) (lvlField w)) ∨
      (opField w ≠ 1#2 ∧ operandField w = 0#38 ∧ opField w = opCode i) := by
  unfold decode at h
  split at h
  · next hop =>
    split_ifs at h with hres hts
    exact .inl ⟨hop, not_not.mp hres, not_not.mp hts, (Except.ok.inj h).symm⟩
  · next hop =>
    split_ifs at h with hoperand h0 h2
    all_goals
      obtain rfl := Except.ok.inj h
      refine .inr ⟨hop, not_not.mp hoperand, ?_⟩
    · exact h0
    · exact h2
    · generalize opField w = op at hop h0 h2 ⊢
      revert op
      decide

/-- The legal words, by their fields (30_encoding.md R76). -/
theorem decode_isLegal_iff (c : Config) (w : EventWord) :
    (∃ i, decode c w = .ok i) ↔
      (opField w = 1#2 → reservedField w = 0#5 ∧ tsField w >>> c.tsWidth = 0#32) ∧
      (opField w ≠ 1#2 → operandField w = 0#38) := by
  constructor
  · rintro ⟨i, h⟩
    rcases decode_cases h with ⟨hop, hres, hts, -⟩ | ⟨hop, hoperand, -⟩
    · exact ⟨fun _ => ⟨hres, hts⟩, fun hne => absurd hop hne⟩
    · exact ⟨fun he => absurd he hop, fun _ => hoperand⟩
  · rintro ⟨hedge, hother⟩
    by_cases hop : opField w = 1#2
    · obtain ⟨hres, hts⟩ := hedge hop
      exact ⟨_, decode_of_edge_op hop hres hts⟩
    · exact decode_of_operandless hop (hother hop)

/-! ### The statements of 30_encoding.md -/

/-- Settles O1: the decoder reads the fields that the encoder writes, and an N-bit timestamp passes its test. -/
theorem decodeReadsEncodedWord : Obligations.DecodeReadsEncodedWord := by
  intro c i hi
  cases i with
  | nop => rfl
  | edge ts lvl =>
    have hts : tsField (encode (.edge ts lvl)) >>> c.tsWidth = 0#32 := by
      rw [tsField_encode_edge]
      exact (ushiftRight_eq_zero_iff ts c.tsWidth).mpr hi
    obtain ⟨hop, hres, -⟩ := Laws.FixedBits.edge ts lvl
    rw [decode_of_edge_op hop hres hts, tsField_encode_edge, lvlField_encode_edge]
  | take => rfl
  | reset => rfl

/-- Settles O2: the word and the encoding agree in every field. -/
theorem decodedWordIsTheEncoding : Obligations.DecodedWordIsTheEncoding := by
  refine fun c w i h => ⟨?_, decode_wellFormed h⟩
  rcases decode_cases h with ⟨hop, hres, -, rfl⟩ | ⟨hop, hoperand, hcode⟩
  · obtain ⟨hop', hres', -⟩ := Laws.FixedBits.edge (tsField w) (lvlField w)
    exact eq_of_fields_eq (hop'.trans hop.symm) (lvlField_encode_edge _ _) (hres'.trans hres.symm)
      (tsField_encode_edge _ _)
  · exact eq_of_operandField_eq ((opField_encode i).trans hcode.symm)
      ((operandField_encode (hcode ▸ hop)).trans hoperand.symm)

/-- The decoder reads exactly the encodings of the operations that the configuration admits. -/
theorem decode_eq_ok_iff (c : Config) (w : EventWord) (i : Instr) :
    decode c w = .ok i ↔ encode i = w ∧ i.WellFormed c :=
  ⟨decodedWordIsTheEncoding c w i, fun ⟨he, hi⟩ => he ▸ decodeReadsEncodedWord c i hi⟩

/-- Settles O3: `decode_isLegal_iff`, each field read bit by bit. -/
theorem legalWordsAreExactlyThese : Obligations.LegalWordsAreExactlyThese := by
  intro c w
  have hres : reservedField w = 0#5 ↔ ∀ k, 3 ≤ k → k ≤ 7 → w.getLsbD k = false := extractLsb_eq_zero_iff (by decide)
  have hoperand : operandField w = 0#38 ↔ ∀ k, 2 ≤ k → k ≤ 39 → w.getLsbD k = false :=
    extractLsb_eq_zero_iff (by decide)
  rw [decode_isLegal_iff, hres, hoperand, tsField_ushiftRight_eq_zero_iff, ne_eq, opField_eq_one_iff]
  constructor
  · rintro ⟨hedge, hother⟩
    refine ⟨?_, fun hop => (hedge hop).2, hother⟩
    by_cases hop : w.toNat % 4 = 1
    · exact (hedge hop).1
    · exact fun k h3 h7 => hother hop k (by omega) (by omega)
  · rintro ⟨hzero, hedge, hother⟩
    exact ⟨fun hop => ⟨hzero, hedge hop⟩, hother⟩

/-- An operation that the configuration admits has one legal word. -/
theorem decode_eq_ok_iff_eq_encode {c : Config} {i : Instr} (hi : i.WellFormed c) (w : EventWord) :
    decode c w = .ok i ↔ w = encode i := by
  rw [decode_eq_ok_iff, and_iff_left hi, eq_comm]

/-- Settles O4: every configuration admits the three, and their encodings are the words written out. -/
theorem operandlessWordsAreUnique : Obligations.OperandlessWordsAreUnique := fun _ w =>
  ⟨decode_eq_ok_iff_eq_encode (i := .nop) trivial w, decode_eq_ok_iff_eq_encode (i := .take) trivial w,
    decode_eq_ok_iff_eq_encode (i := .reset) trivial w⟩

/-- Settles O5: the operands are the fields, and of `TS` only the low N bits can be set. -/
theorem edgeOperandsComeFromTheirFields : Obligations.EdgeOperandsComeFromTheirFields := by
  intro c w ts lvl h
  rcases decode_cases h with ⟨-, -, hts, hi⟩ | ⟨hop, -, hcode⟩
  · obtain ⟨rfl, rfl⟩ := Instr.edge.inj hi
    refine ⟨?_, rfl, (tsField_ushiftRight_eq_zero_iff w c.tsWidth).mp hts⟩
    have value : (tsField w).toNat = w.toNat / 2 ^ 8 := by
      have := w.isLt
      simp only [tsField, BitVec.extractLsb_toNat, Nat.shiftRight_eq_div_pow]
      omega
    rw [← value, Nat.mod_eq_of_lt ((ushiftRight_eq_zero_iff _ _).mp hts)]
  · exact absurd hcode hop

/-- A fetched word that is illegal is refused with its reason (30_encoding.md R76). -/
theorem step_of_illegal {s s1 : State} {w : EventWord} {why : IllegalWord} (hw : s.cfg.WellFormed)
    (hf : fetch s = some (w, s1)) (hd : decode s1.cfg w = .error why) : step s = .refused (.illegalWord why) := by
  simp only [step, if_pos hw, hf, hd]

/-- A refused first step is the outcome of the whole run. -/
theorem run_succ_refused {k : Nat} {s : State} {e : Refusal} (h : step s = .refused e) :
    Sys2Proof.core.run (k + 1) s = .refused e := by
  have h : Sys2Proof.core.step s = .refused e := h
  simp only [Host.Core.run, h]

/-- Settles O8: the first step fetches the word and refuses it, and the run stops there. -/
theorem illegalWordEndsTheRun : Obligations.IllegalWordEndsTheRun := by
  intro s a turns w rest why k hw hs hq hd
  have hd : decode (serve s a turns rest).cfg w = .error why := by rw [serve_cfg, hd]
  exact run_succ_refused (step_of_illegal hw (fetch_of_queued hs hq) hd)

/-- Settles O6: each word is decoded by computation. -/
theorem writtenOutWordsDecode : Obligations.WrittenOutWordsDecode :=
  ⟨rfl, rfl, rfl, rfl, rfl, rfl, rfl, rfl⟩

end Sys2Proof.Machine
end

section
/-! PROOFS for spec 40_edge.md R113 and R114: without a frame start a run can only go on with the frame it is receiving,
and once it has left reception it pushes no bit and makes no framing error. -/

namespace Sys2Proof.Machine

/-! ### Reception, operation by operation -/

/-- The block is receiving a frame (10_state.md R23). -/
abbrev State.Receiving (s : State) : Prop := s.regs.state = .receivingOne ∨ s.regs.state = .receivingZero

/-- Only a receiving state has a framing error (40_edge.md R108 and R109). -/
theorem receiving_of_framingError (i : Instr) (s : State) (h : framingError i s = true) : s.Receiving := by
  cases i with
  | edge ts lvl => cases hs : s.regs.state <;> simp [framingError, State.Receiving, hs] at h ⊢
  | nop => cases h
  | take => cases h
  | reset => cases h

/-- Only an accepted edge is a framing error (40_edge.md R104). -/
theorem framingError_of_not_accepted {i : Instr} {s : State} (h : acceptsEdge i s = false) :
    framingError i s = false := by
  cases i with
  | edge ts lvl => simp [framingError, h]
  | nop => rfl
  | take => rfl
  | reset => rfl

/-- What an operation that starts no frame does to the reception of one (the rows of 40_edge.md R112). -/
inductive Reception (i : Instr) (s t : State) : Prop
  /-- No frame event. -/
  | stay (bit : pushedBit i s = none) (error : framingError i s = false) (state : t.Receiving → s.Receiving)
      (count : t.regs.count = s.regs.count)
  /-- A framing error or a `RESET`: no frame is received any more. -/
  | leave (bit : pushedBit i s = none) (after : ¬t.Receiving)
  /-- A bit before the last. -/
  | push (b : Bool) (bit : pushedBit i s = some b) (error : framingError i s = false) (room : s.regs.count.toNat < 58)
      (count : t.regs.count.toNat = s.regs.count.toNat + 1)
  /-- The last bit. -/
  | complete (b : Bool) (bit : pushedBit i s = some b) (error : framingError i s = false)
      (last : s.regs.count.toNat = 58) (after : ¬t.Receiving)

/-- An accepted edge that starts no frame. -/
theorem EdgeRow.reception {ts : Ts} {lvl : Bool} {s t : State} (h : EdgeRow ts lvl s t)
    (hs : startsFrame (.edge ts lvl) s = false) : Reception (.edge ts lvl) s t := by
  cases h with
  | waiting _ bit error _ after count =>
    exact .stay bit error (by rcases after with after | after <;> simp [State.Receiving, after]) count
  | searching _ bit error _ after count => exact .stay bit error (by simp [State.Receiving, after]) count
  | starting _ _ _ start _ _ _ => simp [start] at hs
  | failing _ bit _ _ after _ => exact .leave bit (by simp [State.Receiving, after])
  | restarting _ _ _ start _ _ _ => simp [start] at hs
  | pushing b _ bit error _ _ room _ count => exact .push b bit error room count
  | completing b _ bit error _ _ last after _ => exact .complete b bit error last (by simp [State.Receiving, after])
  | ticking before bit error _ _ _ count => exact .stay bit error (fun _ => .inr before) count

/-- Every operation that starts no frame and answers is one of the cases. -/
theorem reception_of_exec {i : Instr} {s t : State} (h : exec i s = .next t) (hs : startsFrame i s = false) :
    Reception i s t := by
  rcases exec_cases h with ⟨rfl, rfl⟩ | ⟨ts, lvl, rfl, he⟩ | ⟨rfl, rfl⟩ | ⟨rfl, rfl⟩
  · exact .stay rfl rfl id rfl
  · rcases exec_edge_effect he with ⟨ha, rfl⟩ | ⟨ha, -⟩
    · exact .stay (pushedBit_of_not_accepted ha) (framingError_of_not_accepted ha) id rfl
    · exact (edge_row h (of_decide_eq_true (acceptsEdge_edge ts lvl s ▸ ha))).reception hs
  · exact .stay rfl rfl id rfl
  · exact .leave rfl (by simp [State.Receiving, Regs.reset])

/-! ### Runs without a frame start -/

/-- Outside reception no operation pushes a bit, so none commits either. -/
theorem pushedBit_of_not_receiving {i : Instr} {s : State} (h : ¬s.Receiving) : pushedBit i s = none :=
  pushedBit_of_state_ne fun hs => h (.inl hs)

/-- Outside reception, an operation that starts no frame stays outside (40_edge.md R113). -/
theorem not_receiving_exec {i : Instr} {s t : State} (h : exec i s = .next t) (hs : startsFrame i s = false)
    (hn : ¬s.Receiving) : ¬t.Receiving := by
  cases reception_of_exec h hs with
  | stay _ _ state _ => exact fun ht => hn (state ht)
  | leave _ after => exact after
  | push _ bit _ _ _ => simp [pushedBit_of_not_receiving hn] at bit
  | complete _ _ _ _ after => exact after

/-- Outside reception and without a frame start, nothing that happens in reception alone is counted. -/
theorem countAlong_not_receiving {p : Instr → State → Bool} (hp : ∀ i s, p i s = true → s.Receiving) {is : List Instr}
    {s t : State} (h : execAll is s = .next t) (hs : countAlong startsFrame is s = 0) (hn : ¬s.Receiving) :
    countAlong p is s = 0 := by
  induction is generalizing s with
  | nil => rfl
  | cons i is ih =>
    obtain ⟨u, hu, ht⟩ := execAll_cons_cases h
    rw [countAlong_cons hu, Nat.add_eq_zero_iff, Bool.toNat_eq_zero] at hs
    obtain ⟨first, rest⟩ := hs
    have hpi : p i s = false := Bool.eq_false_iff.mpr fun hi => hn (hp i s hi)
    rw [countAlong_cons hu, hpi, ih ht rest (not_receiving_exec hu first hn)]
    rfl

/-- A bit is pushed in reception alone (40_edge.md R108). -/
theorem receiving_of_pushesBit (i : Instr) (s : State) (h : pushesBit i s = true) : s.Receiving := by
  by_contra hn
  simp [pushesBit, pushedBit_of_not_receiving hn] at h

/-- A frame is completed in reception alone (41_frame_decode.md R141). -/
theorem receiving_of_completesFrame (i : Instr) (s : State) (h : completesFrame i s = true) : s.Receiving :=
  receiving_of_pushesBit i s (Bool.and_eq_true_iff.mp h).1

/-- A frame is committed in reception alone (41_frame_decode.md R141). -/
theorem receiving_of_commitsFrame (i : Instr) (s : State) (h : commitsFrame i s = true) : s.Receiving :=
  receiving_of_completesFrame i s (completesFrame_of_commits h)

/-- Settles O50: the operation that completes a frame leaves reception, and nothing is completed after it. -/
theorem oneDecodePerMinute : Obligations.OneDecodePerMinute := by
  intro is s t h hs
  induction is generalizing s with
  | nil => exact Nat.zero_le 1
  | cons i is ih =>
    obtain ⟨u, hu, ht⟩ := execAll_cons_cases h
    rw [countAlong_cons hu, Nat.add_eq_zero_iff, Bool.toNat_eq_zero] at hs
    obtain ⟨first, rest⟩ := hs
    have ih := ih u ht rest
    rw [countAlong_cons hu]
    cases reception_of_exec hu first with
    | stay bit _ _ _ => simpa [completesFrame_of_none bit] using ih
    | leave bit _ => simpa [completesFrame_of_none bit] using ih
    | push _ bit _ room _ => simpa [completesFrame_of_bit bit, room.ne] using ih
    | complete _ bit _ last after =>
      simp [completesFrame_of_bit bit, last, countAlong_not_receiving receiving_of_completesFrame ht rest after]

/-- A run without a frame start that commits pushes the bits that the frame still lacks, and makes no framing error: the
commit needs the 59th bit, and a run that leaves reception earlier commits nothing. -/
theorem bits_missing_before_commit {is : List Instr} {s t : State} (h : execAll is s = .next t)
    (hs : countAlong startsFrame is s = 0) (hc : 1 ≤ countAlong commitsFrame is s) :
    s.regs.count.toNat + countAlong pushesBit is s = 59 ∧ countAlong framingError is s = 0 := by
  induction is generalizing s with
  | nil => simp [countAlong] at hc
  | cons i is ih =>
    obtain ⟨u, hu, ht⟩ := execAll_cons_cases h
    rw [countAlong_cons hu, Nat.add_eq_zero_iff, Bool.toNat_eq_zero] at hs
    obtain ⟨first, rest⟩ := hs
    have ih := ih ht rest
    rw [countAlong_cons hu] at hc ⊢
    rw [countAlong_cons hu]
    cases reception_of_exec hu first with
    | stay bit error _ count =>
      rw [commitsFrame_of_none bit, Bool.toNat_false, Nat.zero_add] at hc
      simpa [pushesBit, bit, error, count] using ih hc
    | leave bit after =>
      simp [commitsFrame_of_none bit, countAlong_not_receiving receiving_of_commitsFrame ht rest after] at hc
    | push _ bit error room count =>
      rw [commitsFrame_of_room room, Bool.toNat_false, Nat.zero_add] at hc
      obtain ⟨bits, errors⟩ := ih hc
      refine ⟨?_, by simp [error, errors]⟩
      simp only [pushesBit, bit, Option.isSome_some, Bool.toNat_true]
      omega
    | complete _ bit error last after =>
      have bits := countAlong_not_receiving receiving_of_pushesBit ht rest after
      have errors := countAlong_not_receiving receiving_of_framingError ht rest after
      simp [pushesBit, bit, error, last, bits, errors]

/-- Settles O51: just after the frame start all 59 bits are missing. -/
theorem commitNeedsFiftyNineBits : Obligations.CommitNeedsFiftyNineBits := by
  intro is s t _ hn h hs hc
  simpa [hn] using bits_missing_before_commit h hs hc

end Sys2Proof.Machine
end

section
/-! PROOFS for spec 40_edge.md R104 to R111: the debounce, what an accepted edge leaves in each state, and the framing
errors. -/

namespace Sys2Proof.Machine

/-! ### An accepted edge, by its kind -/

/-- A trailing edge is recorded as the last edge alone (40_edge.md R111). -/
theorem recordEdge_trailing (ts : Ts) (r : Regs) :
    recordEdge ts false r = { r with lastEdgeTs := ts, lastEdgeValid := true } := rfl

/-- A leading edge is recorded as the last leading edge too, past the power-on delay (40_edge.md R111). -/
theorem recordEdge_leading {ts : Ts} {r : Regs} (h : r.state ≠ .powerOnDelay) :
    recordEdge ts true r =
      { r with lastEdgeTs := ts, lastEdgeValid := true, lastLeadTs := ts, lastLeadValid := true } := by
  simp [recordEdge, h]

/-- During the power-on delay every edge is recorded as the last edge alone (40_edge.md R111). -/
theorem recordEdge_waiting {ts : Ts} {lead : Bool} {r : Regs} (h : r.state = .powerOnDelay) :
    recordEdge ts lead r = { r with lastEdgeTs := ts, lastEdgeValid := true } := by
  simp [recordEdge, h]

/-- An accepted edge: its state's rule, then the recording (40_edge.md R105 and R111). -/
theorem exec_accepted {ts : Ts} {lvl : Bool} {s : State} {q : Regs} (ha : s.Accepts ts)
    (hq : edgeByState s.cfg ts (decide (s.Leading lvl)) s.regs = .ok q) :
    exec (.edge ts lvl) s = .next { s with regs := recordEdge ts (decide (s.Leading lvl)) q } := by
  have hd : debounced s.cfg ts s.regs = false := by rw [debounced_eq, decide_eq_true ha, Bool.not_true]
  rw [← isLead_eq] at hq ⊢
  exact execEdge_accepted hd hq

/-- An accepted trailing edge. -/
theorem exec_trailing {ts : Ts} {lvl : Bool} {s : State} {q : Regs} (ha : s.Accepts ts) (hl : ¬s.Leading lvl)
    (hq : edgeByState s.cfg ts false s.regs = .ok q) :
    exec (.edge ts lvl) s = .next { s with regs := { q with lastEdgeTs := ts, lastEdgeValid := true } } := by
  rw [exec_accepted ha (by rwa [decide_eq_false hl]), decide_eq_false hl, recordEdge_trailing]

/-- An accepted leading edge whose rule ends past the power-on delay. -/
theorem exec_leading {ts : Ts} {lvl : Bool} {s : State} {q : Regs} (ha : s.Accepts ts) (hl : s.Leading lvl)
    (hq : edgeByState s.cfg ts true s.regs = .ok q) (hs : q.state ≠ .powerOnDelay) :
    exec (.edge ts lvl) s =
      .next { s with regs := { q with
        lastEdgeTs := ts, lastEdgeValid := true, lastLeadTs := ts, lastLeadValid := true } } := by
  rw [exec_accepted ha (by rwa [decide_eq_true hl]), decide_eq_true hl, recordEdge_leading hs]

/-! ### Debounce and recording -/

/-- Settles O28: the edge completes under the invariant, no state's rule writes the last leading edge, and the recording
is the last thing that happens. -/
theorem acceptedEdgesAreRecorded : Obligations.AcceptedEdgesAreRecorded := by
  intro s ts lvl hs ha
  obtain ⟨t, ht⟩ := hs.exec_completes (.edge ts lvl)
  refine ⟨t, ht, ?_⟩
  rcases exec_edge_effect ht with ⟨hn, -⟩ | ⟨-, q, hq, rfl⟩
  · rw [acceptsEdge_edge, decide_eq_true ha] at hn
    cases hn
  obtain ⟨leadTs, leadValid⟩ := hq.lastLead
  refine ⟨recordEdge_lastEdgeTs _ _ _, recordEdge_lastEdgeValid _ _ _, ?_⟩
  simp only [recordEdge_lastLeadTs, recordEdge_lastLeadValid, recordEdge_state, isLead_eq, leadTs, leadValid]
  split
  · next h => simp [h.1, h.2]
  · next h => simp_all

/-- Settles O27: below the floor the edge is ignored; otherwise it is accepted, and so recorded (O28). -/
theorem debounceIgnoresExactlyTheNarrowEdges : Obligations.DebounceIgnoresExactlyTheNarrowEdges := by
  intro s ts lvl hs
  constructor
  · intro hv hlt
    exact execEdge_ignored (by rw [debounced_eq, decide_eq_false (not_not.mpr ⟨hv, hlt⟩), Bool.not_false])
  · intro h
    have ha : s.Accepts ts := by
      rintro ⟨hv, hlt⟩
      rcases h with h | h
      · simp [hv] at h
      · omega
    obtain ⟨t, ht, edgeTs, edgeValid, -⟩ := acceptedEdgesAreRecorded s ts lvl hs ha
    exact ⟨t, ht, edgeTs, edgeValid⟩

/-! ### PowerOnDelay and SyncSearch -/

/-- The power-on reference after an accepted edge: the first one sets it (40_edge.md R106). -/
theorem setPodReference_eq (ts : Ts) (r : Regs) :
    setPodReference ts r = { r with podRefTs := if r.podRefValid then r.podRefTs else ts, podRefValid := true } := by
  cases h : r.podRefValid with
  | true => rw [setPodReference, if_pos h, if_pos rfl, ← h]
  | false => rw [setPodReference, if_neg (by simp [h]), if_neg Bool.false_ne_true]

/-- The delay rule where no leading edge has been recorded: the evaluation of the edge finds no boundary (40_edge.md
R106, 10_state.md R31). -/
theorem edgePowerOnDelay_no_lead {c : Config} {ts : Ts} {lead : Bool} {r : Regs} (h : r.lastLeadValid = false) :
    edgePowerOnDelay c ts lead r =
      if delayPassed c ts (setPodReference ts r) then { setPodReference ts r with state := .syncSearch }
      else setPodReference ts r := by
  have hb : minuteBoundary c ts lead { setPodReference ts r with state := .syncSearch } = false := by
    simp [minuteBoundary, h]
  rw [edgePowerOnDelay, syncEval_other hb]

/-- Settles O29: the edge that ends the delay is recorded in `SyncSearch`, every other one in `PowerOnDelay`. -/
theorem powerOnDelayEdge : Obligations.PowerOnDelayEdge := by
  intro s ts lvl hs hv ha ref seen
  have hseen : setPodReference ts s.regs =
      { s.regs with podRefTs := ref, podRefValid := true } := setPodReference_eq ts s.regs
  have hrule (lead : Bool) : edgeByState s.cfg ts lead s.regs = .ok
      (if s.cfg.powerOnDelay ≤ subN s.cfg ts ref then
        { s.regs with podRefTs := ref, podRefValid := true, state := .syncSearch }
      else { s.regs with podRefTs := ref, podRefValid := true }) := by
    simp [edgeByState, hs, edgePowerOnDelay_no_lead hv, hseen, delayPassed, podElapsed]
  by_cases hd : s.cfg.powerOnDelay ≤ subN s.cfg ts ref
  · simp only [if_pos hd] at hrule ⊢
    by_cases hl : s.Leading lvl
    · rw [if_pos hl]
      exact exec_leading ha hl (hrule true) (by simp)
    · rw [if_neg hl]
      exact exec_trailing ha hl (hrule false)
  · simp only [if_neg hd] at hrule ⊢
    rw [exec_accepted ha (hrule _), recordEdge_waiting (by simpa using hs)]

/-- Settles O30: only a leading edge at a boundary changes more than the record. -/
theorem syncSearchEdge : Obligations.SyncSearchEdge := by
  intro s ts lvl hs ha
  have hrule (lead : Bool) : edgeByState s.cfg ts lead s.regs = .ok (syncEval s.cfg ts lead s.regs) := by
    simp [edgeByState, hs, edgeSyncSearch]
  by_cases hl : s.Leading lvl
  · rw [if_pos hl]
    have hm := minuteBoundary_eq s ts true
    by_cases hb : s.Boundary ts
    · rw [if_pos hb, exec_leading ha hl ((hrule true).trans (by rw [syncEval_boundary (by simp [hm, hb])])) (by simp)]
    · rw [if_neg hb, exec_leading ha hl ((hrule true).trans (by rw [syncEval_other (by simp [hm, hb])])) (by simp [hs])]
  · rw [if_neg hl, exec_trailing ha hl ((hrule false).trans (by rw [syncEval_other rfl]))]

/-! ### Framing errors -/

/-- The code of a framing error, by the state and the kind of the edge (40_edge.md R108 and R109). -/
def framingCode (s : State) (ts : Ts) (lvl : Bool) : FrameOutcome :=
  if s.regs.state = .receivingOne then if s.Leading lvl then .levelFail else .widthFail
  else if ¬s.Leading lvl then .levelFail
  else if subN s.cfg ts s.regs.lastLeadTs ≤ s.cfg.syncMax then .shortFrame else .gapFail

/-- The rule of every framing error is the resync with its code (40_edge.md R110). -/
theorem edgeByState_of_framingError {ts : Ts} {lvl : Bool} {s : State} (h : framingError (.edge ts lvl) s = true) :
    s.Accepts ts ∧ edgeByState s.cfg ts (decide (s.Leading lvl)) s.regs =
      .ok (resync s.cfg (framingCode s ts lvl) ts (decide (s.Leading lvl)) s.regs) := by
  rw [framingError, Bool.and_eq_true, acceptsEdge_edge, decide_eq_true_eq, isLead_eq] at h
  obtain ⟨ha, herr⟩ := h
  refine ⟨ha, ?_⟩
  cases hs : s.regs.state with
  | powerOnDelay => simp [hs] at herr
  | syncSearch => simp [hs] at herr
  | receivingOne =>
    by_cases hl : s.Leading lvl
    · simp [edgeByState, hs, edgeReceivingOne, framingCode, hl]
    · have hc : classify s.cfg (pulseWidth s.cfg ts s.regs) = none := by simpa [hs, hl] using herr
      simp [edgeByState, hs, edgeReceivingOne, framingCode, hl, hc]
  | receivingZero =>
    by_cases hl : s.Leading lvl
    · have hi : ¬interval s.cfg ts s.regs < s.cfg.syncMin := by simpa [hs, hl] using herr
      rw [edgeByState, hs, framingCode, if_neg (by simp [hs]), if_neg (not_not.mpr hl), decide_eq_true hl]
      simp only [edgeReceivingZero, Bool.not_true, Bool.false_eq_true, if_false, if_neg hi]
      unfold interval
      split <;> rfl
    · simp [edgeByState, hs, edgeReceivingZero, framingCode, hl]

/-- Settles O33: the resync in one equation, and the recording, which writes none of these registers. -/
theorem framingErrorsDiscardAndResync : Obligations.FramingErrorsDiscardAndResync := by
  intro ts lvl s h
  obtain ⟨ha, hq⟩ := edgeByState_of_framingError h
  refine ⟨_, exec_accepted ha hq, by simp, by simp, ?_, ?_, by simp [Regs.SameResult], by simp, by simp⟩
  · rw [recordEdge_lastOutcome, resync_lastOutcome]
    rfl
  · rw [recordEdge_state, resync_eq, minuteBoundary_eq]
    simp

/-! ### ReceivingOne and ReceivingZero -/

/-- A received bit, `COUNT` being at most 58 (40_edge.md R108). -/
theorem edgeByState_bit {s : State} {ts : Ts} (hw : s.cfg.WellFormed) (hs : s.regs.state = .receivingOne)
    (hp : s.ShortPulse ts ∨ s.LongPulse ts) :
    edgeByState s.cfg ts false s.regs = receiveBit s.cfg (decide (s.LongPulse ts)) s.regs := by
  simp only [edgeByState, hs, edgeReceivingOne, Bool.false_eq_true, if_false, classify_eq hw, if_pos hp]

/-- Settles O31: a leading edge and an unclassified width are framing errors, a classified one is a received bit. -/
theorem receivingOneEdge : Obligations.ReceivingOneEdge := by
  intro s ts lvl hw hs hc ha
  by_cases hl : s.Leading lvl
  · rw [if_pos hl]
    have hq : edgeByState s.cfg ts true s.regs = .ok (resync s.cfg .levelFail ts true s.regs) := by
      simp [edgeByState, hs, edgeReceivingOne]
    rw [resync_eq, minuteBoundary_eq] at hq
    rw [exec_leading ha hl hq (by dsimp only; split <;> simp)]
    simp
  rw [if_neg hl]
  by_cases hp : s.ShortPulse ts ∨ s.LongPulse ts
  · rw [if_pos hp]
    have h58 : s.regs.count = 58 ↔ s.regs.count.toNat = 58 := by
      rw [← BitVec.toNat_inj]
      rfl
    have hq := edgeByState_bit hw hs hp
    rw [receiveBit_of_lt (by omega)] at hq
    rw [exec_trailing ha hl hq]
    simp only [h58]
    split <;> rfl
  · rw [if_neg hp]
    have hq : edgeByState s.cfg ts false s.regs = .ok (resync s.cfg .widthFail ts false s.regs) := by
      simp [edgeByState, hs, edgeReceivingOne, classify_eq hw, hp]
    rw [resync_eq, minuteBoundary_trailing] at hq
    exact exec_trailing ha hl hq

/-- Settles O32: the three intervals of a leading edge; of these only the sync window is a boundary. -/
theorem receivingZeroEdge : Obligations.ReceivingZeroEdge := by
  intro s ts lvl hs hv ha i lead
  by_cases hl : s.Leading lvl
  · rw [if_pos hl]
    have hrule : edgeByState s.cfg ts true s.regs = .ok
        (if i < s.cfg.syncMin then { s.regs with state := .receivingOne }
        else if i ≤ s.cfg.syncMax then resync s.cfg .shortFrame ts true s.regs
        else resync s.cfg .gapFail ts true s.regs) := by
      simp only [edgeByState, hs, edgeReceivingZero, Bool.not_true, Bool.false_eq_true, if_false]
      rfl
    by_cases h1 : i < s.cfg.syncMin
    · rw [if_pos h1] at hrule ⊢
      exact exec_leading ha hl hrule (by simp)
    by_cases h2 : i ≤ s.cfg.syncMax
    · have hb : s.Boundary ts := ⟨hv, not_lt.mp h1, h2⟩
      rw [if_neg h1, if_pos h2] at hrule ⊢
      rw [resync_eq, minuteBoundary_eq, decide_eq_true hb] at hrule
      exact exec_leading ha hl hrule (by simp)
    · have hb : ¬s.Boundary ts := fun hb => h2 hb.2.2
      rw [if_neg h1, if_neg h2] at hrule ⊢
      rw [resync_eq, minuteBoundary_eq, decide_eq_false hb] at hrule
      exact exec_leading ha hl hrule (by simp)
  · rw [if_neg hl]
    have hq : edgeByState s.cfg ts false s.regs = .ok (resync s.cfg .levelFail ts false s.regs) := by
      simp [edgeByState, hs, edgeReceivingZero]
    rw [resync_eq, minuteBoundary_trailing] at hq
    exact exec_trailing ha hl hq

end Sys2Proof.Machine
end

section
/-! PROOFS for spec 40_edge.md R115 and R116: a step or a sequence without edges, and the pulse of a leap second. -/

namespace Sys2Proof.Machine

/-- A sequence whose first operation answers goes on from its answer. -/
theorem execAll_cons {i : Instr} {s t : State} (h : exec i s = .next t) (is : List Instr) :
    execAll (i :: is) s = execAll is t := by
  rw [execAll, h]

/-- A sequence whose first part answers goes on from its answer. -/
theorem execAll_append {is : List Instr} {s t : State} (h : execAll is s = .next t) (js : List Instr) :
    execAll (is ++ js) s = execAll js t := by
  induction is generalizing s with
  | nil =>
    obtain rfl := Host.Outcome.next.inj h
    rfl
  | cons i is ih =>
    obtain ⟨u, hu, ht⟩ := execAll_cons_cases h
    rw [List.cons_append, execAll_cons hu, ih ht]

/-! ### Silence -/

/-- An agent with nothing to deliver delivers the idle word (00_scope.md R9). -/
theorem fetch_of_empty_queue {s : State} {a : Agent} {turns : List Agent} (hs : s.schedule = a :: turns)
    (hq : queueOf s a = []) : fetch s = some (encode .nop, serve s a turns []) := by
  simp only [fetch, hs, hq]

/-- Settles O10: with no turn left the step is idle; an agent with nothing to deliver is served, and its idle word does
nothing. -/
theorem nothingToDeliverChangesNothing : Obligations.NothingToDeliverChangesNothing := by
  intro s hw
  refine ⟨step_of_no_turn hw, fun a turns hs hq => ⟨serve s a turns [], ?_, by simp, by simp, by simp⟩⟩
  exact step_of_decoded hw (fetch_of_empty_queue hs hq) (decodeReadsEncodedWord _ .nop trivial)

/-- Settles O38: a `NOP` leaves the state, and of several `TAKE`s the first clears `FULL` and `OVERRUN`. -/
theorem silenceChangesNothing : Obligations.SilenceChangesNothing := by
  intro is s hi
  induction is generalizing s with
  | nil => exact ⟨s, rfl, by simp⟩
  | cons i is ih =>
    rw [List.forall_mem_cons] at hi
    obtain ⟨rfl | rfl, rest⟩ := hi
    · obtain ⟨t, ht, regs⟩ := ih s rest
      exact ⟨t, (execAll_cons rfl is).trans ht, by simpa using regs⟩
    · obtain ⟨t, ht, regs⟩ := ih _ rest
      exact ⟨t, (execAll_cons rfl is).trans ht, by simpa using regs⟩

/-! ### The leap second -/

/-- The state with the last edge and the last leading edge as given (40_edge.md R111). -/
def State.withLast (s : State) (edge lead : Ts) : State :=
  { s with regs := { s.regs with lastEdgeTs := edge, lastEdgeValid := true, lastLeadTs := lead, lastLeadValid := true } }

/-- Settles O37: by the rule of `SyncSearch` (O30) the first two edges are only recorded, and the third, a boundary as
measured from the first, starts a frame. -/
theorem leapSecondPulseIsPassedOver : Obligations.LeapSecondPulseIsPassedOver := by
  intro s lead1 trail lead2 on _ hs hl ha hearly htrail hgap hmin hmax
  have hon : (s.withLast trail lead1).Leading on := hl
  have hoff : ¬(s.withLast lead1 lead1).Leading (!on) := by
    rw [State.Leading, ← show on = (s.withLast lead1 lead1).cfg.pulseActiveLevel from hl]
    simp
  have first : exec (.edge lead1 on) s = .next (s.withLast lead1 lead1) := by
    rw [syncSearchEdge s lead1 on hs ha, if_pos hl, if_neg fun hb => hb.2.1.not_gt hearly, State.withLast]
  have second : exec (.edge trail (!on)) (s.withLast lead1 lead1) = .next (s.withLast trail lead1) := by
    rw [syncSearchEdge (s.withLast lead1 lead1) trail (!on) hs fun h => htrail.not_gt h.2, if_neg hoff]
    rfl
  have third : exec (.edge lead2 on) (s.withLast trail lead1) =
      .next { s with regs := { (s.withLast lead2 lead2).regs with frame := 0, count := 0, state := .receivingOne } } := by
    rw [syncSearchEdge (s.withLast trail lead1) lead2 on hs fun h => hgap.not_gt h.2, if_pos hon,
      if_pos ⟨rfl, hmin, hmax⟩]
    rfl
  have run := (execAll_cons first _).trans ((execAll_cons second _).trans (execAll_cons third []))
  exact ⟨_, run, rfl, rfl, rfl, ⟨rfl, rfl, rfl, rfl, rfl, rfl⟩, rfl, rfl, rfl⟩

end Sys2Proof.Machine
end

section
/-! PROOFS for spec 40_edge.md R107 and R108 with 41_frame_decode.md R140: the pulses of a whole frame, second by second.
Between two operations the block is in a state of `State.midFrame`, which says how many bits it holds. -/

namespace Sys2Proof.Machine

/-! ### The timestamps of the assembler -/

/-- The timestamp of the clock reading `t` (30_encoding.md R87). -/
def stamp (c : Config) (t : Nat) : Ts := BitVec.ofNat 32 (t % 2 ^ c.tsWidth)

theorem asmEdge_eq (c : Config) (t : Nat) (lvl : Bool) : asmEdge c t lvl = .edge (stamp c t) lvl := rfl

/-- The value of a timestamp is the reading modulo 2^N. -/
theorem stamp_toNat {c : Config} (hN : c.tsWidth ≤ 32) (t : Nat) : (stamp c t).toNat = t % 2 ^ c.tsWidth := by
  have hle : 2 ^ c.tsWidth ≤ 2 ^ 32 := Nat.pow_le_pow_right (by decide) hN
  have hlt : t % 2 ^ c.tsWidth < 2 ^ c.tsWidth := Nat.mod_lt _ (Nat.two_pow_pos _)
  rw [stamp, BitVec.toNat_ofNat, Nat.mod_eq_of_lt (hlt.trans_le hle)]

/-- Two readings less than 2^N ticks apart have their distance as difference (70_reset_and_hazards.md R240). -/
theorem subN_stamp_add {c : Config} (hN : c.tsWidth ≤ 32) (t : Nat) {d : Nat} (hd : d < 2 ^ c.tsWidth) :
    subN c (stamp c (t + d)) (stamp c t) = d := by
  zify
  rw [subN_eq_emod _ _ hN, stamp_toNat hN, stamp_toNat hN]
  push_cast
  rw [← Int.sub_emod, add_sub_cancel_left]
  exact Int.emod_eq_of_lt (Int.natCast_nonneg d) (by exact_mod_cast hd)

/-! ### The pulses of a frame -/

/-- The width of the pulse that encodes a bit (30_encoding.md R87). -/
def AsmConstants.width (k : AsmConstants) (b : Bool) : Nat := if b then k.w1 else k.w0

/-- The constants suit the configuration: both widths lie in their windows, the pause after a pulse passes the debounce,
and one second is no minute boundary. -/
structure AsmConstants.Suits (k : AsmConstants) (c : Config) : Prop where
  wellFormed : c.WellFormed
  short : c.shortMin ≤ k.w0 ∧ k.w0 ≤ c.shortMax
  long : c.longMin ≤ k.w1 ∧ k.w1 ≤ c.longMax
  pause : k.w1 + c.debounceMin ≤ k.sec
  second : k.sec < c.syncMin

/-- A pulse and the pause after it pass the debounce and end within the second, and the second ends before 2^N ticks. -/
theorem AsmConstants.Suits.bounds {k : AsmConstants} {c : Config} (h : k.Suits c) (b : Bool) :
    c.debounceMin ≤ k.width b ∧ k.width b + c.debounceMin ≤ k.sec ∧ k.sec < 2 ^ c.tsWidth := by
  obtain ⟨wf, short, long, pause, second⟩ := h
  unfold Config.WellFormed at wf
  have hpos := Nat.two_pow_pos c.tsWidth
  cases b <;> simp only [AsmConstants.width, Bool.false_eq_true, if_false, if_true] <;> omega

/-- A pulse is classified as the bit it encodes (40_edge.md R108). -/
theorem AsmConstants.Suits.classify_width {k : AsmConstants} {c : Config} (h : k.Suits c) (b : Bool) :
    classify c (k.width b) = some b := by
  obtain ⟨wf, short, long, -, -⟩ := h
  unfold Config.WellFormed at wf
  cases b with
  | false => exact if_pos short
  | true => exact (if_neg (show ¬(c.shortMin ≤ k.w1 ∧ k.w1 ≤ c.shortMax) by omega)).trans (if_pos long)

/-- The pulses of the first `n` bits of a frame (30_encoding.md R87). -/
def pulses (c : Config) (k : AsmConstants) (t0 : Nat) (f : Frame) (n : Nat) : List Instr :=
  (List.range n).flatMap fun j => asmBit c k (t0 + k.sec * j) (f.getLsbD j)

theorem asmFrameBits_eq_pulses (c : Config) (k : AsmConstants) (t0 : Nat) (f : Frame) :
    asmFrameBits c k t0 f 0 58 = pulses c k t0 f 59 := by
  simp [asmFrameBits, pulses]

/-- The pulse of one more bit: its leading edge and, after its width, its trailing edge. -/
theorem pulses_succ (c : Config) (k : AsmConstants) (t0 : Nat) (f : Frame) (n : Nat) :
    pulses c k t0 f (n + 1) = pulses c k t0 f n ++
      [.edge (stamp c (t0 + k.sec * n)) c.pulseActiveLevel,
        .edge (stamp c (t0 + k.sec * n + k.width (f.getLsbD n))) (!c.pulseActiveLevel)] := by
  rw [pulses, List.range_succ, List.flatMap_append, List.flatMap_singleton]
  rfl

/-! ### The frame received so far -/

/-- The first `n` bits of a frame, the others 0 (10_state.md R34 and R35). -/
def firstBits (f : Frame) (n : Nat) : Frame := (f.setWidth n).setWidth 59

theorem getLsbD_firstBits (f : Frame) (n : Nat) {j : Nat} (hj : j < 59) :
    (firstBits f n).getLsbD j = (decide (j < n) && f.getLsbD j) := by
  simp [firstBits, hj]

@[simp] theorem firstBits_zero (f : Frame) : firstBits f 0 = 0 :=
  BitVec.eq_of_getLsbD_eq fun j hj => by simp [getLsbD_firstBits f 0 hj]

@[simp] theorem firstBits_all (f : Frame) : firstBits f 59 = f := by simp [firstBits]

/-- The next bit stored after the first `n` (10_state.md R34). -/
theorem setFrameBit_firstBits (f : Frame) (n : Nat) :
    setFrameBit (firstBits f n) n (f.getLsbD n) = firstBits f (n + 1) := by
  refine BitVec.eq_of_getLsbD_eq fun j hj => ?_
  rw [getLsbD_setFrameBit _ _ _ _ hj, getLsbD_firstBits f n hj, getLsbD_firstBits f (n + 1) hj]
  by_cases hjn : j = n
  · simp [hjn]
  · rw [if_neg hjn, decide_eq_decide.mpr (show j < n ↔ j < n + 1 by omega)]

/-! ### Reception, edge by edge -/

/-- The state in the middle of a frame: in `st`, with `n` bits of `f` received, after the given last edge and last leading
edge. Everything else is as in `s`. -/
def State.midFrame (s : State) (st : DecoderState) (f : Frame) (n : Nat) (edge lead : Ts) : State :=
  { s with regs := { (s.withLast edge lead).regs with
    state := st, frame := firstBits f n, count := BitVec.ofNat 6 n } }

/-- In the pulse of bit `n`, which began at the reading `t`. -/
def State.inPulse (s : State) (f : Frame) (n t : Nat) : State :=
  s.midFrame .receivingOne f n (stamp s.cfg t) (stamp s.cfg t)

/-- In the pause after the pulse of bit `n`, which began at the reading `t`. -/
def State.inPause (s : State) (k : AsmConstants) (f : Frame) (n t : Nat) : State :=
  s.midFrame .receivingZero f (n + 1) (stamp s.cfg (t + k.width (f.getLsbD n))) (stamp s.cfg t)

/-- An accepted trailing edge in `ReceivingOne` pushes the bit of its width (40_edge.md R108). -/
theorem pushedBit_of_classified {s : State} {ts : Ts} {lvl b : Bool} (ha : s.Accepts ts)
    (hs : s.regs.state = .receivingOne) (hl : ¬s.Leading lvl)
    (hb : classify s.cfg (pulseWidth s.cfg ts s.regs) = some b) : pushedBit (.edge ts lvl) s = some b := by
  rw [pushedBit, acceptsEdge_edge, isLead_eq, decide_eq_true ha, decide_eq_true hs, decide_eq_false hl]
  exact hb

/-- A leading edge too early for a boundary goes on with the frame in the next second (40_edge.md R109). -/
theorem exec_next_second {s : State} {ts : Ts} {lvl : Bool} (hs : s.regs.state = .receivingZero)
    (hv : s.regs.lastLeadValid = true) (ha : s.Accepts ts) (hl : s.Leading lvl)
    (hi : subN s.cfg ts s.regs.lastLeadTs < s.cfg.syncMin) :
    exec (.edge ts lvl) s = .next { s with regs := { (s.withLast ts ts).regs with state := .receivingOne } } := by
  rw [receivingZeroEdge s ts lvl hs hv ha, if_pos hl, if_pos hi]
  rfl

/-- The minute boundary starts the frame (40_edge.md R107). -/
theorem exec_boundary {s : State} {t : Nat} (f : Frame) (hs : s.regs.state = .syncSearch)
    (ha : s.Accepts (stamp s.cfg t)) (hb : s.Boundary (stamp s.cfg t)) :
    exec (.edge (stamp s.cfg t) s.cfg.pulseActiveLevel) s = .next (s.inPulse f 0 t) := by
  rw [syncSearchEdge s _ _ hs ha, if_pos rfl, if_pos hb, State.inPulse, State.midFrame, firstBits_zero]
  rfl

section
variable {s : State} {k : AsmConstants} (h : k.Suits s.cfg) (f : Frame) (n t : Nat)
include h

/-- The trailing edge of a pulse pushes the pulse's bit (40_edge.md R108). -/
theorem pushedBit_inPulse :
    pushedBit (.edge (stamp s.cfg (t + k.width (f.getLsbD n))) (!s.cfg.pulseActiveLevel)) (s.inPulse f n t) =
      some (f.getLsbD n) := by
  obtain ⟨floor, pause, second⟩ := h.bounds (f.getLsbD n)
  obtain ⟨⟨-, hN⟩, -⟩ := h.wellFormed
  have hw : subN s.cfg (stamp s.cfg (t + k.width (f.getLsbD n))) (stamp s.cfg t) = k.width (f.getLsbD n) :=
    subN_stamp_add hN t (by omega)
  have ha : (s.inPulse f n t).Accepts (stamp s.cfg (t + k.width (f.getLsbD n))) :=
    fun hd => (hw ▸ floor).not_gt hd.2
  have hl : ¬(s.inPulse f n t).Leading (!s.cfg.pulseActiveLevel) := Bool.not_ne_self _
  exact pushedBit_of_classified ha rfl hl ((congrArg _ hw).trans (h.classify_width _))

/-- Before the last bit the trailing edge ends in the pause, with one more bit (40_edge.md R108). -/
theorem exec_trailing_inPulse (hn : n < 58) :
    exec (.edge (stamp s.cfg (t + k.width (f.getLsbD n))) (!s.cfg.pulseActiveLevel)) (s.inPulse f n t) =
      .next (s.inPause k f n t) := by
  have hc : (s.inPulse f n t).regs.count.toNat = n := by
    rw [State.inPulse, State.midFrame, BitVec.toNat_ofNat]
    omega
  have hs : (s.inPulse f n t).regs.count + 1 = BitVec.ofNat 6 (n + 1) := (BitVec.ofNat_add n 1).symm
  obtain ⟨ts, lvl, hi, he⟩ := exec_of_pushedBit (pushedBit_inPulse h f n t) (by omega)
  obtain ⟨rfl, rfl⟩ := Instr.edge.inj hi
  rw [he, if_neg (by omega), hc, hs, State.inPause, State.midFrame, ← setFrameBit_firstBits]
  rfl

/-- The leading edge of the next second begins the next pulse (40_edge.md R109). -/
theorem exec_leading_inPause :
    exec (.edge (stamp s.cfg (t + k.sec)) s.cfg.pulseActiveLevel) (s.inPause k f n t) =
      .next (s.inPulse f (n + 1) (t + k.sec)) := by
  obtain ⟨-, pause, second⟩ := h.bounds (f.getLsbD n)
  obtain ⟨⟨-, hN⟩, -⟩ := h.wellFormed
  have hp : subN s.cfg (stamp s.cfg (t + k.sec)) (stamp s.cfg (t + k.width (f.getLsbD n))) =
      k.sec - k.width (f.getLsbD n) := by
    rw [show t + k.sec = t + k.width (f.getLsbD n) + (k.sec - k.width (f.getLsbD n)) by omega]
    exact subN_stamp_add hN _ (by omega)
  have ha : (s.inPause k f n t).Accepts (stamp s.cfg (t + k.sec)) :=
    fun hd => (hp ▸ (show s.cfg.debounceMin ≤ k.sec - k.width (f.getLsbD n) by omega)).not_gt hd.2
  have hi : subN s.cfg (stamp s.cfg (t + k.sec)) (stamp s.cfg t) < s.cfg.syncMin := by
    rw [subN_stamp_add hN t second]
    exact h.second
  exact exec_next_second rfl rfl ha rfl hi

/-- The first `n` pulses of the frame lead up to second `n`, in whose pulse the buffer holds `n` bits. -/
theorem execAll_pulses {t0 : Nat} (hs : s.regs.state = .syncSearch) (ha : s.Accepts (stamp s.cfg t0))
    (hb : s.Boundary (stamp s.cfg t0)) {n : Nat} (hn : n ≤ 58) :
    ∃ u, execAll (pulses s.cfg k t0 f n) s = .next u ∧
      exec (.edge (stamp s.cfg (t0 + k.sec * n)) s.cfg.pulseActiveLevel) u = .next (s.inPulse f n (t0 + k.sec * n)) := by
  induction n with
  | zero => exact ⟨s, rfl, exec_boundary f hs ha hb⟩
  | succ n ih =>
    obtain ⟨u, hu, hlead⟩ := ih (by omega)
    rw [Nat.mul_succ, ← Nat.add_assoc]
    refine ⟨s.inPause k f n (t0 + k.sec * n), ?_, exec_leading_inPause h f n _⟩
    rw [pulses_succ, execAll_append hu, execAll_cons hlead, execAll_cons (exec_trailing_inPulse h f n _ (by omega)),
      execAll]

end

/-! ### The whole frame -/

/-- A commit leaves the fields that the frame's bits give by their weights, none truncated (41_frame_decode.md R145). -/
theorem commitFrame_holdsResultOf (f : Frame) (r : Regs) : (commitFrame f r).HoldsResultOf f := by
  obtain ⟨hm, hh, hd, hmo, hy⟩ := frame_fields_le f
  have hw : frameDow f ≤ 7 := Nat.le_of_lt_succ (f.extractLsb 44 42).isLt
  obtain ⟨em, eh, ed, ew, emo, ey⟩ := fields_eq_weighted f
  refine ⟨?_, ?_, ?_, ?_, ?_, ?_⟩
  all_goals
    simp only [commitFrame_rMinute, commitFrame_rHour, commitFrame_rDay, commitFrame_rDow, commitFrame_rMonth,
      commitFrame_rYear, BitVec.toNat_ofNat]
    omega

/-- Settles O55: the first 58 pulses and the leading edge of second 58 by `execAll_pulses`; the last trailing edge
completes the frame, which its checks commit or reject. -/
theorem wholeFrameIsReceived : Obligations.WholeFrameIsReceived := by
  intro s k t0 f first hw hs ha hb hs0 hs1 hl0 hl1 hpause hsec
  have h : k.Suits s.cfg := ⟨hw, ⟨hs0, hs1⟩, ⟨hl0, hl1⟩, hpause, hsec⟩
  obtain ⟨u, hu, hlead⟩ := execAll_pulses h f hs ha hb (le_refl 58)
  have hbit := pushedBit_inPulse h f 58 (t0 + k.sec * 58)
  have hframe : setFrameBit (firstBits f 58) 58 (f.getLsbD 58) = f := by
    rw [setFrameBit_firstBits, firstBits_all]
  rw [asmFrameBits_eq_pulses, pulses_succ, execAll_append hu, execAll_cons hlead]
  cases hf : failedCheck s.cfg f with
  | none =>
    obtain ⟨ts, lvl, -, hlast⟩ := exec_of_last_bit_passed rfl hbit hframe hf
    exact ⟨_, execAll_cons hlast [], rfl, rfl, commitFrame_holdsResultOf f s.regs, rfl, rfl, rfl⟩
  | some code =>
    obtain ⟨ts, lvl, -, hlast⟩ := exec_of_last_bit_failed rfl hbit hframe hf
    exact ⟨_, execAll_cons hlast [], rfl, rfl, .refl _, rfl, rfl, rfl⟩

end Sys2Proof.Machine
end

section
/-! SUPPORT for spec 41_frame_decode.md: which bits the checks and the fields read (R151), and when a frame passes every
check (R144). -/

namespace Sys2Proof.Machine

/-! ### The bits that are read -/

/-- Two frames agree in every bit but 1 to 19 (41_frame_decode.md R151). -/
def SameReadBits (f g : Frame) : Prop := ∀ k, k = 0 ∨ 20 ≤ k → f.getLsbD k = g.getLsbD k

theorem SameReadBits.refl (f : Frame) : SameReadBits f f := fun _ _ => rfl

/-- Fields with the same bits are equal. -/
theorem extractLsb_congr {f g : Frame} {hi lo : Nat}
    (h : ∀ j, j < hi - lo + 1 → f.getLsbD (lo + j) = g.getLsbD (lo + j)) : f.extractLsb hi lo = g.extractLsb hi lo := by
  apply BitVec.eq_of_getLsbD_eq
  intro j hj
  simp only [BitVec.getLsbD_extractLsb, h j hj]

theorem SameReadBits.extractLsb {f g : Frame} (h : SameReadBits f g) (hi : Nat) {lo : Nat} (hlo : 20 ≤ lo) :
    f.extractLsb hi lo = g.extractLsb hi lo :=
  extractLsb_congr fun j _ => h (lo + j) (.inr (by omega))

/-- No field reads a bit from 1 to 19 (41_frame_decode.md R145). -/
theorem SameReadBits.fields {f g : Frame} (h : SameReadBits f g) :
    frameMinute f = frameMinute g ∧ frameHour f = frameHour g ∧ frameDay f = frameDay g ∧ frameDow f = frameDow g ∧
    frameMonth f = frameMonth g ∧ frameYear f = frameYear g := by
  simp only [frameMinute, frameHour, frameDay, frameDow, frameMonth, frameYear, h.extractLsb, Nat.reduceLeDiff, and_self]

theorem SameReadBits.writeResult {f g : Frame} (h : SameReadBits f g) (r : Regs) : writeResult f r = writeResult g r := by
  obtain ⟨minute, hour, day, dow, month, year⟩ := h.fields
  simp only [Machine.writeResult, minute, hour, day, dow, month, year]

/-- The range check reads no bit from 1 to 19 (41_frame_decode.md R146). -/
theorem SameReadBits.inRange {f g : Frame} (h : SameReadBits f g) : inRange f = inRange g := by
  obtain ⟨minute, hour, day, dow, month, -⟩ := h.fields
  rw [Bool.eq_iff_iff]
  simp only [Machine.inRange, Bool.and_eq_true, decide_eq_true_eq, minute, hour, day, dow, month, h.extractLsb,
    Nat.reduceLeDiff]

/-- No check reads a bit from 1 to 19 (41_frame_decode.md R142 to R146). -/
theorem SameReadBits.failedCheck {f g : Frame} (h : SameReadBits f g) (c : Config) :
    failedCheck c f = failedCheck c g := by
  have markers : markersValid f = markersValid g := by
    rw [markersValid, markersValid, h 0 (.inl rfl), h 20 (.inr le_rfl)]
  have minute : minuteParityOdd f = minuteParityOdd g := congrArg xorReduce (h.extractLsb 28 (by decide))
  have hour : hourParityOdd f = hourParityOdd g := congrArg xorReduce (h.extractLsb 35 (by decide))
  have date : dateParityOdd f = dateParityOdd g := congrArg xorReduce (h.extractLsb 58 (by decide))
  rw [Machine.failedCheck, Machine.failedCheck, markers, minute, hour, date, h.inRange]

/-- The same bit stored in both frames. -/
theorem SameReadBits.setFrameBit {f g : Frame} (h : SameReadBits f g) (n : Nat) (b : Bool) :
    SameReadBits (setFrameBit f n b) (setFrameBit g n b) := by
  intro k hk
  by_cases hlt : k < 59
  · rw [getLsbD_setFrameBit _ _ _ _ hlt, getLsbD_setFrameBit _ _ _ _ hlt, h k hk]
  · rw [BitVec.getLsbD_of_ge _ _ (by omega), BitVec.getLsbD_of_ge _ _ (by omega)]

/-! ### The checks -/

/-- The parity of each group by the number of its one bits (41_frame_decode.md R143). -/
theorem parities_eq_ones (f : Frame) :
    minuteParityOdd f = decide (onesIn f 21 28 % 2 = 1) ∧ hourParityOdd f = decide (onesIn f 29 35 % 2 = 1) ∧
    dateParityOdd f = decide (onesIn f 36 58 % 2 = 1) :=
  ⟨xorReduce_extract f (by decide), xorReduce_extract f (by decide), xorReduce_extract f (by decide)⟩

/-- The outcome of the decode, each parity group by the number of its one bits (41_frame_decode.md R142 to R144). -/
theorem failedCheck_getD_committed (c : Config) (f : Frame) :
    (failedCheck c f).getD .committed =
      if f.getLsbD 0 = true ∨ f.getLsbD 20 = false then .markerFail
      else if onesIn f 21 28 % 2 = 1 then .parityMinuteFail
      else if onesIn f 29 35 % 2 = 1 then .parityHourFail
      else if onesIn f 36 58 % 2 = 1 then .parityDateFail
      else if c.rangeCheck = true ∧ inRange f = false then .rangeFail
      else .committed := by
  have markers : (!markersValid f) = true ↔ f.getLsbD 0 = true ∨ f.getLsbD 20 = false := by
    simp [markersValid]
  obtain ⟨minute, hour, date⟩ := parities_eq_ones f
  have range : (c.rangeCheck && !inRange f) = true ↔ c.rangeCheck = true ∧ inRange f = false := by simp
  simp only [failedCheck, markers, minute, hour, date, range, decide_eq_true_eq]
  simp only [apply_ite (Option.getD · FrameOutcome.committed), Option.getD_some, Option.getD_none]

/-- A frame passes when its markers are valid, its three groups are even and, with `RANGE_CHECK`, it is in range. -/
theorem failedCheck_eq_none_iff (c : Config) (f : Frame) :
    failedCheck c f = none ↔
      markersValid f = true ∧ minuteParityOdd f = false ∧ hourParityOdd f = false ∧ dateParityOdd f = false ∧
        (c.rangeCheck && !inRange f) = false := by
  unfold failedCheck
  split_ifs <;> simp_all

/-- `COMMITTED` is recorded exactly for the frames that pass. -/
theorem failedCheck_getD_eq_committed_iff (c : Config) (f : Frame) :
    (failedCheck c f).getD .committed = .committed ↔ failedCheck c f = none := by
  unfold failedCheck
  split_ifs <;> simp

end Sys2Proof.Machine
end

section
/-! PROOFS for spec 41_frame_decode.md R151: frame bits 1 to 19 are never read. The relation of `SameButUnreadBits` on the
registers is kept by each operation on them, so by `EDGE`, by every operation and by every run. -/

namespace Sys2Proof.Machine

/-- A relation that every operation keeps, answering on the second side whenever it answers on the first, is kept by every
sequence of operations. -/
theorem execAll_simulation {R : State → State → Prop}
    (hstep : ∀ (i : Instr) {s t u : State}, R s t → exec i s = .next u → ∃ v, exec i t = .next v ∧ R u v)
    {is : List Instr} {s t u : State} (h : R s t) (hu : execAll is s = .next u) :
    ∃ v, execAll is t = .next v ∧ R u v := by
  induction is generalizing s t with
  | nil =>
    rw [← Host.Outcome.next.inj hu]
    exact ⟨t, rfl, h⟩
  | cons i is ih =>
    obtain ⟨s1, hs1, hu1⟩ := execAll_cons_cases hu
    obtain ⟨t1, ht1, h1⟩ := hstep i h hs1
    obtain ⟨v, hv, huv⟩ := ih h1 hu1
    exact ⟨v, (execAll_cons ht1 is).trans hv, huv⟩

/-- Two register states differ at most in the frame bits 1 to 19. -/
def Regs.SameButUnread (r q : Regs) : Prop := ∃ g, q = { r with frame := g } ∧ SameReadBits r.frame g

/-- `SameButUnreadBits` is `Regs.SameButUnread` of the registers, with the rest of the state equal. -/
theorem sameButUnreadBits_iff (s t : State) :
    SameButUnreadBits s t ↔ ∃ q, t = { s with regs := q } ∧ s.regs.SameButUnread q := by
  constructor
  · rintro ⟨rest, bits⟩
    exact ⟨_, rest, _, rfl, bits⟩
  · rintro ⟨q, rfl, g, rfl, bits⟩
    exact ⟨rfl, bits⟩

theorem Regs.SameButUnread.refl (r : Regs) : r.SameButUnread r := ⟨r.frame, rfl, .refl _⟩

section
variable {r q : Regs}

/-! ### What the rules read is the same -/

theorem Regs.SameButUnread.state (h : r.SameButUnread q) : q.state = r.state := by
  obtain ⟨g, rfl, -⟩ := h
  rfl

theorem Regs.SameButUnread.pulseWidth (h : r.SameButUnread q) (c : Config) (ts : Ts) :
    pulseWidth c ts q = pulseWidth c ts r := by
  obtain ⟨g, rfl, -⟩ := h
  rfl

theorem Regs.SameButUnread.interval (h : r.SameButUnread q) (c : Config) (ts : Ts) :
    interval c ts q = interval c ts r := by
  obtain ⟨g, rfl, -⟩ := h
  rfl

theorem Regs.SameButUnread.debounced (h : r.SameButUnread q) (c : Config) (ts : Ts) :
    debounced c ts q = debounced c ts r := by
  obtain ⟨g, rfl, -⟩ := h
  rfl

theorem Regs.SameButUnread.delayPassed (h : r.SameButUnread q) (c : Config) (ts : Ts) :
    delayPassed c ts q = delayPassed c ts r := by
  obtain ⟨g, rfl, -⟩ := h
  rfl

theorem Regs.SameButUnread.minuteBoundary (h : r.SameButUnread q) (c : Config) (ts : Ts) (lead : Bool) :
    minuteBoundary c ts lead q = minuteBoundary c ts lead r := by
  obtain ⟨g, rfl, -⟩ := h
  exact minuteBoundary_congr rfl rfl

/-! ### The shared operations keep the relation -/

theorem Regs.SameButUnread.withState (h : r.SameButUnread q) (st : DecoderState) :
    { r with state := st }.SameButUnread { q with state := st } := by
  obtain ⟨g, rfl, hg⟩ := h
  exact ⟨g, rfl, hg⟩

theorem Regs.SameButUnread.decodeAndCommit (h : r.SameButUnread q) (c : Config) :
    (decodeAndCommit c r).SameButUnread (decodeAndCommit c q) := by
  obtain ⟨g, rfl, hg⟩ := h
  have hcheck := hg.failedCheck c
  cases hc : failedCheck c g with
  | some code =>
    rw [decodeAndCommit_failed rfl (hcheck.trans hc), decodeAndCommit_failed rfl hc]
    exact ⟨g, rfl, hg⟩
  | none =>
    rw [decodeAndCommit_passed (r := r) rfl (hcheck.trans hc),
      decodeAndCommit_passed (r := { r with frame := g }) rfl hc, commitFrame, hg.writeResult]
    exact ⟨g, rfl, hg⟩

/-- A frame start clears both frames. -/
theorem Regs.SameButUnread.syncEval (h : r.SameButUnread q) (c : Config) (ts : Ts) (lead : Bool) :
    (syncEval c ts lead r).SameButUnread (syncEval c ts lead q) := by
  have hm := h.minuteBoundary c ts lead
  cases hb : Machine.minuteBoundary c ts lead r with
  | true =>
    rw [syncEval_boundary hb, syncEval_boundary (hm.trans hb)]
    obtain ⟨g, rfl, -⟩ := h
    exact .refl _
  | false =>
    rw [syncEval_other hb, syncEval_other (hm.trans hb)]
    exact h

/-- The framing-error action clears both frames. -/
theorem Regs.SameButUnread.resync (h : r.SameButUnread q) (c : Config) (code : FrameOutcome) (ts : Ts) (lead : Bool) :
    (resync c code ts lead r).SameButUnread (resync c code ts lead q) := by
  rw [resync_eq, resync_eq, h.minuteBoundary c ts lead]
  obtain ⟨g, rfl, -⟩ := h
  exact .refl _

theorem Regs.SameButUnread.recordEdge (h : r.SameButUnread q) (ts : Ts) (lead : Bool) :
    (recordEdge ts lead r).SameButUnread (recordEdge ts lead q) := by
  obtain ⟨g, rfl, hg⟩ := h
  unfold Machine.recordEdge
  split <;> exact ⟨g, rfl, hg⟩

/-! ### The state's rules keep the relation -/

theorem Regs.SameButUnread.setPodReference (h : r.SameButUnread q) (ts : Ts) :
    (setPodReference ts r).SameButUnread (setPodReference ts q) := by
  obtain ⟨g, rfl, hg⟩ := h
  simp only [setPodReference_eq]
  exact ⟨g, rfl, hg⟩

/-- Both sides have the same power-on reference, so they find the same delay (40_edge.md R106). -/
theorem Regs.SameButUnread.edgePowerOnDelay (h : r.SameButUnread q) (c : Config) (ts : Ts) (lead : Bool) :
    (edgePowerOnDelay c ts lead r).SameButUnread (edgePowerOnDelay c ts lead q) := by
  have href := h.setPodReference ts
  unfold Machine.edgePowerOnDelay
  rw [href.delayPassed c ts]
  split
  · exact (href.withState .syncSearch).syncEval c ts lead
  · exact href

/-- Both sides store the same bit at the same place, and the 59th runs the decode on both. -/
theorem Regs.SameButUnread.receiveBit {r' : Regs} {c : Config} {b : Bool} (h : r.SameButUnread q)
    (hr : receiveBit c b r = .ok r') : ∃ q', receiveBit c b q = .ok q' ∧ r'.SameButUnread q' := by
  obtain ⟨g, rfl, hg⟩ := h
  by_cases hlt : r.count.toNat < 59
  · rw [receiveBit_of_lt hlt] at hr
    refine ⟨_, receiveBit_of_lt hlt, ?_⟩
    rw [← Except.ok.inj hr]
    have hpushed : Regs.SameButUnread
        { r with frame := setFrameBit r.frame r.count.toNat b, count := r.count + 1 }
        { r with frame := setFrameBit g r.count.toNat b, count := r.count + 1 } :=
      ⟨setFrameBit g r.count.toNat b, rfl, hg.setFrameBit _ b⟩
    split
    · exact (hpushed.decodeAndCommit c).withState .syncSearch
    · exact hpushed.withState .receivingZero
  · rw [receiveBit_of_ge hlt] at hr
    cases hr

theorem Regs.SameButUnread.edgeReceivingOne {r' : Regs} {c : Config} {ts : Ts} {lead : Bool} (h : r.SameButUnread q)
    (hr : edgeReceivingOne c ts lead r = .ok r') :
    ∃ q', edgeReceivingOne c ts lead q = .ok q' ∧ r'.SameButUnread q' := by
  unfold Machine.edgeReceivingOne at hr ⊢
  rw [h.pulseWidth c ts]
  split_ifs at hr ⊢
  · rw [← Except.ok.inj hr]
    exact ⟨_, rfl, h.resync c _ ts _⟩
  · cases hb : classify c (Machine.pulseWidth c ts r) with
    | none =>
      simp only [hb] at hr
      rw [← Except.ok.inj hr]
      exact ⟨_, rfl, h.resync c _ ts _⟩
    | some b =>
      simp only [hb] at hr
      exact h.receiveBit hr

theorem Regs.SameButUnread.edgeReceivingZero (h : r.SameButUnread q) (c : Config) (ts : Ts) (lead : Bool) :
    (edgeReceivingZero c ts lead r).SameButUnread (edgeReceivingZero c ts lead q) := by
  unfold Machine.edgeReceivingZero
  rw [h.interval c ts]
  split_ifs
  · exact h.resync c _ ts lead
  · exact h.withState .receivingOne
  · exact h.resync c _ ts lead
  · exact h.resync c _ ts lead

/-- The dispatch on `STATE`, which both sides share. -/
theorem Regs.SameButUnread.edgeByState {r' : Regs} {c : Config} {ts : Ts} {lead : Bool} (h : r.SameButUnread q)
    (hr : edgeByState c ts lead r = .ok r') : ∃ q', edgeByState c ts lead q = .ok q' ∧ r'.SameButUnread q' := by
  unfold Machine.edgeByState at hr ⊢
  rw [h.state]
  split at hr
  · rw [← Except.ok.inj hr]
    exact ⟨_, rfl, h.edgePowerOnDelay c ts lead⟩
  · rw [← Except.ok.inj hr]
    exact ⟨_, rfl, h.syncEval c ts lead⟩
  · exact h.edgeReceivingOne hr
  · rw [← Except.ok.inj hr]
    exact ⟨_, rfl, h.edgeReceivingZero c ts lead⟩

end

/-! ### Operations and runs keep the relation -/

/-- An `EDGE` is ignored on both sides or accepted on both: the debounce reads no bit of the frame. -/
theorem SameButUnreadBits.of_execEdge {ts : Ts} {lvl : Bool} {s t u : State} (h : SameButUnreadBits s t)
    (hu : execEdge ts lvl s = .next u) : ∃ v, execEdge ts lvl t = .next v ∧ SameButUnreadBits u v := by
  obtain ⟨q, rfl, hq⟩ := (sameButUnreadBits_iff s t).mp h
  have hd := hq.debounced s.cfg ts
  rcases execEdge_cases hu with ⟨hign, rfl⟩ | ⟨hacc, r', hr, rfl⟩
  · exact ⟨_, execEdge_ignored (hd.trans hign), h⟩
  · obtain ⟨q', hq', hsame⟩ := hq.edgeByState hr
    exact ⟨_, execEdge_accepted (hd.trans hacc) hq', (sameButUnreadBits_iff _ _).mpr ⟨_, rfl, hsame.recordEdge ts _⟩⟩

/-- Every operation that answers on one side answers on the other, with the same response, and the states after it are
again related. -/
theorem SameButUnreadBits.of_exec (i : Instr) {s t u : State} (h : SameButUnreadBits s t) (hu : exec i s = .next u) :
    ∃ v, exec i t = .next v ∧ SameButUnreadBits u v := by
  cases i with
  | nop =>
    rw [← Host.Outcome.next.inj hu]
    exact ⟨t, rfl, h⟩
  | edge ts lvl => exact h.of_execEdge hu
  | take =>
    obtain ⟨q, rfl, g, rfl, hg⟩ := (sameButUnreadBits_iff s t).mp h
    rw [← Host.Outcome.next.inj hu]
    exact ⟨_, rfl, rfl, hg⟩
  | reset =>
    obtain ⟨q, rfl, -⟩ := (sameButUnreadBits_iff s t).mp h
    rw [← Host.Outcome.next.inj hu]
    exact ⟨_, rfl, (sameButUnreadBits_iff _ _).mpr ⟨_, rfl, .refl _⟩⟩

/-- Settles O45: the simulation along the run. -/
theorem frameBitsOneToNineteenAreNeverRead : Obligations.FrameBitsOneToNineteenAreNeverRead :=
  fun _ _ _ _ h hu => execAll_simulation SameButUnreadBits.of_exec h hu

end Sys2Proof.Machine
end

section
/-! PROOFS for spec 41_frame_decode.md R142 to R148: the outcome of a completed frame, the range check, the commit and the
discard. -/

namespace Sys2Proof.Machine

/-! ### The operation that pushes the last bit -/

/-- The outcome of the operation that pushes the 59th bit is that of the checks on the completed frame (R144). -/
theorem lastOutcome_of_last_bit {i : Instr} {s t : State} {b : Bool} (hc : s.regs.count = 58)
    (hb : pushedBit i s = some b) (ht : exec i s = .next t) :
    t.regs.lastOutcome = (failedCheck s.cfg (setFrameBit s.regs.frame 58 b)).getD .committed := by
  obtain ⟨ts, lvl, -, he⟩ := exec_of_last_bit (congrArg BitVec.toNat hc) hb
  obtain rfl := Host.Outcome.next.inj (he.symm.trans ht)
  exact decodeAndCommit_outcome rfl

/-- Settles O39: the outcome is that of the checks, each parity group by the number of its one bits. -/
theorem firstFailedCheckIsReported : Obligations.FirstFailedCheckIsReported := by
  intro i s b hc hb f
  obtain ⟨ts, lvl, -, he⟩ := exec_of_last_bit (congrArg BitVec.toNat hc) hb
  exact ⟨_, he, (lastOutcome_of_last_bit hc hb he).trans (failedCheck_getD_committed s.cfg f)⟩

/-- Settles O41: the weighted fields by `commitFrame_holdsResultOf`, the rest by the commit's equations. -/
theorem commitWritesTheWeightedFields : Obligations.CommitWritesTheWeightedFields := by
  intro i s b hc hb hp
  obtain ⟨ts, lvl, -, he⟩ := exec_of_last_bit_passed (congrArg BitVec.toNat hc) hb rfl hp
  exact ⟨_, he, commitFrame_holdsResultOf _ s.regs, rfl, rfl, rfl, rfl⟩

/-! ### The range check -/

/-- The value of a digit of four bits (00_scope.md R13). -/
theorem toNat_digit (f : Frame) (lo : Nat) :
    (f.extractLsb' lo 4).toNat =
      bitValue f lo + 2 * bitValue f (lo + 1) + 4 * bitValue f (lo + 2) + 8 * bitValue f (lo + 3) := by
  simp only [toNat_field_succ, toNat_field_zero, Nat.add_assoc, Nat.reduceAdd]
  omega

/-- Settles O40: the two sides are the same comparisons, the fields and the digits each by the weights of their bits. -/
theorem rangeCheckBounds : Obligations.RangeCheckBounds := by
  intro f
  obtain ⟨minute, hour, day, dow, month, -⟩ := fields_eq_weighted f
  simp only [inRange, Bool.and_eq_true, decide_eq_true_eq, minute, hour, day, dow, month]
  simp only [BitVec.extractLsb, Nat.reduceSub, Nat.reduceAdd, toNat_digit, List.forall_mem_cons, List.not_mem_nil,
    false_implies, implies_true, true_and, and_assoc]

/-! ### A rejected frame -/

/-- In `SyncSearch` an operation that starts no frame and is no `RESET` leaves `STATE`, `FRAME` and `COUNT` (R147). -/
theorem exec_searching {i : Instr} {s t : State} (h : exec i s = .next t) (hs : s.regs.state = .syncSearch)
    (hn : startsFrame i s = false) (hi : i ≠ .reset) :
    t.regs.state = .syncSearch ∧ t.regs.frame = s.regs.frame ∧ t.regs.count = s.regs.count := by
  rcases exec_cases h with ⟨-, rfl⟩ | ⟨ts, lvl, rfl, he⟩ | ⟨-, rfl⟩ | ⟨rfl, -⟩
  · exact ⟨hs, rfl, rfl⟩
  · rcases execEdge_cases he with ⟨-, rfl⟩ | ⟨hd, q, hq, rfl⟩
    · exact ⟨hs, rfl, rfl⟩
    · have hm : minuteBoundary s.cfg ts (isLead s.cfg lvl) s.regs = false := by
        simpa [startsFrame, acceptsEdge, hd, hs] using hn
      have hrule : edgeByState s.cfg ts (isLead s.cfg lvl) s.regs = .ok s.regs := by
        rw [edgeByState, hs]
        exact congrArg Except.ok (syncEval_other hm)
      obtain rfl := Except.ok.inj (hrule.symm.trans hq)
      simp [hs]
  · exact ⟨hs, rfl, rfl⟩
  · exact absurd rfl hi

/-- From `SyncSearch` a sequence of operations without a frame start and without a `RESET` leaves `FRAME` and `COUNT`. -/
theorem execAll_searching {is : List Instr} {s t : State} (h : execAll is s = .next t) (hs : s.regs.state = .syncSearch)
    (hn : countAlong startsFrame is s = 0) (hi : .reset ∉ is) :
    t.regs.frame = s.regs.frame ∧ t.regs.count = s.regs.count := by
  induction is generalizing s with
  | nil =>
    rw [← Host.Outcome.next.inj h]
    exact ⟨rfl, rfl⟩
  | cons i is ih =>
    obtain ⟨u, hu, ht⟩ := execAll_cons_cases h
    rw [countAlong_cons hu, Nat.add_eq_zero_iff, Bool.toNat_eq_zero] at hn
    rw [List.mem_cons, not_or] at hi
    obtain ⟨first, rest⟩ := hn
    obtain ⟨state, frame, count⟩ := exec_searching hu hs first (Ne.symm hi.1)
    rw [← frame, ← count]
    exact ih ht state rest hi.2

/-- Settles O42: the decode writes the outcome alone, and the operations after it leave the buffer
(`execAll_searching`). -/
theorem rejectedFrameIsDiscarded : Obligations.RejectedFrameIsDiscarded := by
  intro i s b code hc hb hf
  obtain ⟨ts, lvl, -, he⟩ := exec_of_last_bit_failed (congrArg BitVec.toNat hc) hb rfl hf
  exact ⟨_, he, rfl, .refl _, rfl, rfl, rfl, rfl, rfl, fun is u hi hn hu => execAll_searching hu rfl hn hi⟩

end Sys2Proof.Machine
end

section
/-! PROOFS for spec 41_frame_decode.md R150: what one flipped bit does to each check. -/

namespace Sys2Proof.Machine

/-- The frame with bit `k` flipped. -/
def flipBit (f : Frame) (k : Nat) : Frame := f ^^^ (1#59 <<< k)

theorem getLsbD_flipBit (f : Frame) {k : Nat} (hk : k < 59) (j : Nat) :
    (flipBit f k).getLsbD j = xor (f.getLsbD j) (decide (j = k)) := by
  rw [flipBit, BitVec.getLsbD_xor, BitVec.getLsbD_shiftLeft, BitVec.getLsbD_one]
  congr 1
  rw [Bool.eq_iff_iff]
  simp only [Bool.and_eq_true, Bool.not_eq_true', decide_eq_true_eq, decide_eq_false_iff_not]
  omega

/-- A flip of one of the bits 1 to 19 changes no bit that is read (R151). -/
theorem sameReadBits_flipBit (f : Frame) {k : Nat} (h0 : k ≠ 0) (hk : k ≤ 19) : SameReadBits (flipBit f k) f := by
  intro j hj
  rw [getLsbD_flipBit f (by omega), decide_eq_false (by omega), Bool.xor_false]

/-- A flip inverts exactly the parities of the groups that hold the bit (R143). -/
theorem xorReduce_flipBit (f : Frame) {k : Nat} (hk : k < 59) {lo hi : Nat} (hle : lo ≤ hi) :
    xorReduce ((flipBit f k).extractLsb hi lo) =
      xor (xorReduce (f.extractLsb hi lo)) (decide (lo ≤ k ∧ k ≤ hi)) := by
  by_cases hlo : lo ≤ k
  · have hbits : ∀ j, j < hi - lo + 1 → ((flipBit f k).extractLsb hi lo).getLsbD j =
        xor ((f.extractLsb hi lo).getLsbD j) (decide (j = k - lo)) := by
      intro j hj
      simp only [BitVec.getLsbD_extractLsb, hj, decide_true, Bool.true_and, getLsbD_flipBit f hk]
      rw [decide_eq_decide.mpr (show lo + j = k ↔ j = k - lo by omega)]
    rw [xorReduce_flip _ _ _ hbits, decide_eq_decide.mpr (show k - lo < hi - lo + 1 ↔ lo ≤ k ∧ k ≤ hi by omega)]
  · have hsame : (flipBit f k).extractLsb hi lo = f.extractLsb hi lo := by
      apply extractLsb_congr
      intro j _
      rw [getLsbD_flipBit f hk, decide_eq_false (by omega), Bool.xor_false]
    rw [hsame, decide_eq_false (by omega), Bool.xor_false]

theorem parities_flipBit (f : Frame) {k : Nat} (hk : k < 59) :
    minuteParityOdd (flipBit f k) = xor (minuteParityOdd f) (decide (21 ≤ k ∧ k ≤ 28)) ∧
    hourParityOdd (flipBit f k) = xor (hourParityOdd f) (decide (29 ≤ k ∧ k ≤ 35)) ∧
    dateParityOdd (flipBit f k) = xor (dateParityOdd f) (decide (36 ≤ k ∧ k ≤ 58)) :=
  ⟨xorReduce_flipBit f hk (by decide), xorReduce_flipBit f hk (by decide), xorReduce_flipBit f hk (by decide)⟩

/-- Valid markers stay valid after every flip but that of a marker (R142). -/
theorem markersValid_flipBit {f : Frame} {k : Nat} (hk : k < 59) (hf : markersValid f = true) :
    markersValid (flipBit f k) = !decide (k = 0 ∨ k = 20) := by
  simp only [markersValid, Bool.and_eq_true, Bool.not_eq_true'] at hf
  obtain ⟨bit0, bit20⟩ := hf
  rw [markersValid, getLsbD_flipBit f hk, getLsbD_flipBit f hk, bit0, bit20]
  simp [eq_comm]

/-- The checks on a frame that passes them, after a flip outside the bits 1 to 19: each bit that is read belongs to one
check (R150). -/
theorem failedCheck_flipBit {c : Config} {f : Frame} {k : Nat} (hf : failedCheck c f = none) (hk : k < 59)
    (h : k = 0 ∨ 20 ≤ k) :
    failedCheck c (flipBit f k) =
      some (if k = 0 ∨ k = 20 then .markerFail else if k ≤ 28 then .parityMinuteFail
        else if k ≤ 35 then .parityHourFail else .parityDateFail) := by
  obtain ⟨markers, minute, hour, date, -⟩ := (failedCheck_eq_none_iff c f).mp hf
  obtain ⟨minute', hour', date'⟩ := parities_flipBit f hk
  simp only [failedCheck, markersValid_flipBit hk markers, minute', hour', date', minute, hour, date, Bool.not_not,
    Bool.false_xor, decide_eq_true_eq]
  by_cases hmarker : k = 0 ∨ k = 20
  · rw [if_pos hmarker, if_pos hmarker]
  rw [if_neg hmarker, if_neg hmarker]
  by_cases hminute : k ≤ 28
  · rw [if_pos (by omega), if_pos hminute]
  rw [if_neg (by omega), if_neg hminute]
  by_cases hhour : k ≤ 35
  · rw [if_pos (by omega), if_pos hhour]
  · rw [if_neg (by omega), if_neg hhour, if_pos (by omega)]

/-- The operation that pushes the last bit of a frame that passes leaves the result of its commit (R148). -/
theorem sameResult_of_last_bit {i : Instr} {s t : State} {b : Bool} (hc : s.regs.count = 58)
    (hb : pushedBit i s = some b) (hp : failedCheck s.cfg (setFrameBit s.regs.frame 58 b) = none)
    (ht : exec i s = .next t) : t.regs.SameResult (commitFrame (setFrameBit s.regs.frame 58 b) s.regs) := by
  obtain ⟨ts, lvl, -, he⟩ := exec_of_last_bit_passed (congrArg BitVec.toNat hc) hb rfl hp
  obtain rfl := Host.Outcome.next.inj (he.symm.trans ht)
  exact ⟨rfl, rfl, rfl, rfl, rfl, rfl⟩

/-- The results of two commits are the same when the frames agree in the bits that are read. -/
theorem SameReadBits.sameResult {f g : Frame} (h : SameReadBits f g) {r q r₀ q₀ : Regs}
    (hr : r.SameResult (commitFrame f r₀)) (hq : q.SameResult (commitFrame g q₀)) : r.SameResult q := by
  obtain ⟨minute, hour, day, dow, month, year⟩ := h.fields
  simp_all [Regs.SameResult]

/-- Settles O44: a bit that is read fails its own check (`failedCheck_flipBit`), and the other bits change neither the
checks nor the fields. -/
theorem singleBitErrors : Obligations.SingleBitErrors := by
  intro i j s u b d k t v hcfg hs hu hb hd hk hflip ht hv hcommit
  have houtcome := lastOutcome_of_last_bit hu hd hv
  have hpass := (failedCheck_getD_eq_committed_iff _ _).mp ((lastOutcome_of_last_bit hs hb ht).symm.trans hcommit)
  replace hflip : setFrameBit u.regs.frame 58 d = flipBit (setFrameBit s.regs.frame 58 b) k := hflip
  by_cases hread : k = 0 ∨ 20 ≤ k
  · rw [hflip, ← hcfg, failedCheck_flipBit hpass hk hread, Option.getD_some] at houtcome
    by_cases hmarker : k = 0 ∨ k = 20
    · rw [if_pos hmarker] at houtcome ⊢
      exact houtcome
    rw [if_neg hmarker] at houtcome ⊢
    rw [if_neg (by omega)]
    split_ifs at houtcome ⊢ <;> exact houtcome
  · have hsame := sameReadBits_flipBit (setFrameBit s.regs.frame 58 b) (k := k) (by omega) (by omega)
    rw [← hflip] at hsame
    have hpass' := (hsame.failedCheck u.cfg).trans (hcfg ▸ hpass)
    rw [if_neg (by omega), if_pos (by omega)]
    exact ⟨by rw [houtcome, hpass']; rfl,
      hsame.sameResult (sameResult_of_last_bit hu hd hpass' hv) (sameResult_of_last_bit hs hb hpass ht)⟩

end Sys2Proof.Machine
end

section
/-! PROOFS for spec 42_host_ops.md R170 to R174: `NOP` may be left out, what `TAKE` returns and clears, and how the `TAKE`s of
a run go with its commits. -/

namespace Sys2Proof.Machine

/-! ### NOP -/

/-- Settles O15: `NOP` is the identity, and its one legal word is its encoding (O4). -/
theorem nopLeavesTheState : Obligations.NopLeavesTheState :=
  ⟨fun _ => rfl, rfl, fun c w => (operandlessWordsAreUnique c w).1.mp⟩

/-- Two sequences that end alike from every state still do after one more operation in front. -/
theorem execAll_cons_congr {is js : List Instr} (h : ∀ s, execAll is s = execAll js s) (i : Instr) (s : State) :
    execAll (i :: is) s = execAll (i :: js) s := by
  simp only [execAll, h]

/-- Settles O16: a `NOP` in front leaves the state, any other operation stays in the filtered sequence. -/
theorem nopsMayBeRemoved : Obligations.NopsMayBeRemoved := by
  intro is
  induction is with
  | nil => exact fun _ => rfl
  | cons i is ih =>
    intro s
    by_cases hi : i = .nop
    · subst hi
      exact (execAll_cons rfl is).trans (ih s)
    · rw [List.filter_cons_of_pos (by simpa using hi)]
      exact execAll_cons_congr ih i s

/-! ### The response of a TAKE -/

/-- The bits of the response word that R78 does not list are 0 (30_encoding.md). -/
theorem responseWord_unused (r : Regs) :
    (responseWord r).extractLsb' 2 2 = 0 ∧ (responseWord r).getLsbD 15 = false ∧
    (responseWord r).extractLsb' 22 2 = 0 ∧ (responseWord r).extractLsb' 30 2 = 0 ∧
    (responseWord r).extractLsb' 35 5 = 0 ∧ (responseWord r).extractLsb' 45 3 = 0 ∧
    (responseWord r).extractLsb' 56 8 = 0 := by
  refine ⟨?_, responseWord_getLsbD r 15, ?_, ?_, ?_, ?_, ?_⟩
  all_goals
    refine responseWord_field _ fun j hj => ?_
    rw [responseWord_getLsbD]
    grind

/-- Settles O17: `TAKE` responds with the response word, whose bits are the fields (`responseWord_fields`) and zeros
(`responseWord_unused`). -/
theorem takeReturnsTheFieldsAndClears : Obligations.TakeReturnsTheFieldsAndClears := by
  refine ⟨rfl, fun s => ⟨responseWord s.regs, rfl, ?_⟩⟩
  obtain ⟨full, overrun, outcome, minute, hour, day, dow, month, year⟩ := responseWord_fields s.regs
  obtain ⟨zero2, zero15, zero22, zero30, zero35, zero45, zero56⟩ := responseWord_unused s.regs
  exact ⟨full, overrun, zero2, outcome, minute, zero15, hour, zero22, day, zero30, dow, zero35, month, zero45, year,
    zero56⟩

/-! ### A second TAKE -/

/-- Nothing of the sequence meets `p` when its first operation does not and the rest does not. -/
theorem countAlong_cons_eq_zero {p : Instr → State → Bool} {i : Instr} {is : List Instr} {s t : State}
    (h : exec i s = .next t) : countAlong p (i :: is) s = 0 ↔ p i s = false ∧ countAlong p is t = 0 := by
  rw [countAlong_cons h, Nat.add_eq_zero_iff, Bool.toNat_eq_zero]

/-- Nothing waits to be taken. -/
def Regs.Taken (r : Regs) : Prop := r.full = false ∧ r.overrun = false

/-- Only a commit leaves something to be taken (10_state.md R37 and R38). -/
theorem exec_taken {i : Instr} {s t : State} (h : exec i s = .next t) (hc : commitsFrame i s = false)
    (hs : s.regs.Taken) : t.regs.Taken := by
  rcases exec_cases h with ⟨-, rfl⟩ | ⟨ts, lvl, rfl, -⟩ | ⟨-, rfl⟩ | ⟨-, rfl⟩
  · exact hs
  · obtain ⟨hf, ho⟩ := hs
    obtain ⟨full, overrun⟩ := exec_full_overrun h nofun nofun
    simp [Regs.Taken, full, overrun, hf, ho, hc]
  · exact ⟨rfl, rfl⟩
  · exact ⟨rfl, rfl⟩

/-- Without a commit nothing comes to be taken. -/
theorem execAll_taken {is : List Instr} {s t : State} (h : execAll is s = .next t)
    (hc : countAlong commitsFrame is s = 0) (hs : s.regs.Taken) : t.regs.Taken := by
  induction is generalizing s with
  | nil => exact Host.Outcome.next.inj h ▸ hs
  | cons i is ih =>
    obtain ⟨u, hu, ht⟩ := execAll_cons_cases h
    obtain ⟨first, rest⟩ := (countAlong_cons_eq_zero hu).mp hc
    exact ih ht rest (exec_taken hu first hs)

/-- `LAST_OUTCOME` is written by framing errors, completed frames and `RESET` alone (10_state.md R39). -/
theorem exec_lastOutcome {i : Instr} {s t : State} (h : exec i s = .next t) (hi : i ≠ .reset)
    (hf : framingError i s = false) (hc : completesFrame i s = false) : t.regs.lastOutcome = s.regs.lastOutcome := by
  rcases exec_cases h with ⟨-, rfl⟩ | ⟨ts, lvl, rfl, -⟩ | ⟨-, rfl⟩ | ⟨rfl, -⟩
  · rfl
  · exact exec_edge_lastOutcome h hc hf
  · rfl
  · exact absurd rfl hi

/-- A sequence without any of these leaves `LAST_OUTCOME`. -/
theorem execAll_lastOutcome {is : List Instr} {s t : State} (h : execAll is s = .next t) (hi : .reset ∉ is)
    (hf : countAlong framingError is s = 0) (hc : countAlong completesFrame is s = 0) :
    t.regs.lastOutcome = s.regs.lastOutcome := by
  induction is generalizing s with
  | nil => rw [Host.Outcome.next.inj h]
  | cons i is ih =>
    obtain ⟨u, hu, ht⟩ := execAll_cons_cases h
    obtain ⟨errorFirst, errorRest⟩ := (countAlong_cons_eq_zero hu).mp hf
    obtain ⟨frameFirst, frameRest⟩ := (countAlong_cons_eq_zero hu).mp hc
    rw [List.mem_cons, not_or] at hi
    exact (ih ht hi.2 errorRest frameRest).trans (exec_lastOutcome hu (Ne.symm hi.1) errorFirst frameFirst)

/-- Settles O19: the `TAKE` leaves nothing to be taken, and without a commit that stays so (`execAll_taken`); the fields and
the outcome stay by their own frame conditions. -/
theorem secondTakeFindsNothing : Obligations.SecondTakeFindsNothing := by
  intro is s u v hu hv hc
  have taken : u.regs.Taken := by
    rw [← Host.Outcome.next.inj hu]
    exact ⟨rfl, rfl⟩
  obtain ⟨full, overrun⟩ := execAll_taken hv hc taken
  exact ⟨full, overrun, execAll_sameResult hv hc, execAll_lastOutcome hv⟩

/-! ### Full responses and commits -/

/-- One operation's account of results: what is taken and what still waits after it had been waiting or is committed by
it. -/
theorem exec_takesFull_le {i : Instr} {s t : State} (h : exec i s = .next t) :
    (takesFull i s).toNat + t.regs.full.toNat ≤ s.regs.full.toNat + (commitsFrame i s).toNat := by
  rcases exec_cases h with ⟨rfl, rfl⟩ | ⟨ts, lvl, rfl, -⟩ | ⟨rfl, rfl⟩ | ⟨rfl, rfl⟩
  · simp
  · rw [takesFull_edge, (exec_full_overrun h nofun nofun).1]
    cases s.regs.full <;> simp
  · simp
  · simp [Regs.reset]

/-- The same account for a sequence: the pending result enters as `FULL` before and after, which makes it an induction. -/
theorem execAll_takesFull_le {is : List Instr} {s t : State} (h : execAll is s = .next t) :
    countAlong takesFull is s + t.regs.full.toNat ≤ s.regs.full.toNat + countAlong commitsFrame is s := by
  induction is generalizing s with
  | nil =>
    rw [Host.Outcome.next.inj h]
    simp [countAlong]
  | cons i is ih =>
    obtain ⟨u, hu, ht⟩ := execAll_cons_cases h
    rw [countAlong_cons hu, countAlong_cons hu]
    have first := exec_takesFull_le hu
    have rest := ih ht
    omega

/-- Settles O20: the account `execAll_takesFull_le` from a state in which nothing waits. -/
theorem fullResponsesNeverOutnumberCommits : Obligations.FullResponsesNeverOutnumberCommits := by
  intro is s t hs h
  have account := execAll_takesFull_le h
  rw [hs, Bool.toNat_false, Nat.zero_add] at account
  exact (Nat.le_add_right _ _).trans account

end Sys2Proof.Machine
end

section
/-! PROOFS for spec 60_exceptions.md R200, R203 and R206: no step faults, a commit and a `TAKE` in either order, and the
level output `frame_ready`. -/

namespace Sys2Proof.Machine

/-! ### No fault -/

/-- A step that faults has fetched a word whose operation faults (log 5). -/
theorem step_fault {s : State} {e : Fault} (h : step s = .fault e) :
    ∃ w s1 i, fetch s = some (w, s1) ∧ decode s1.cfg w = .ok i ∧ exec i s1 = .fault e := by
  unfold step at h
  split at h
  · split at h
    · cases h
    · next w s1 hf =>
      split at h
      · cases h
      · next i hd => exact ⟨w, s1, i, hf, hd, h⟩
  · cases h

/-- Settles O48: fetching keeps the invariant, under which every operation completes. -/
theorem noStepFaults : Obligations.NoStepFaults := by
  intro s e hs h
  obtain ⟨w, s1, i, hf, -, he⟩ := step_fault h
  obtain ⟨t, ht⟩ := (hs.of_fetch hf).exec_completes i
  cases he.symm.trans ht

/-! ### The output frame_ready -/

/-- Settles O22: `TAKE` and `RESET` clear `FULL`; after any other operation it follows from whether that commits
(`exec_full_overrun`). -/
theorem frameReadyFollowsCommitAndTake : Obligations.FrameReadyFollowsCommitAndTake := by
  intro i s t h
  by_cases hi : i = .take ∨ i = .reset
  · rw [if_pos hi]
    obtain rfl | rfl := hi <;> (obtain rfl := Host.Outcome.next.inj h; rfl)
  · rw [if_neg hi]
    obtain ⟨hti, hri⟩ := not_or.mp hi
    rw [frameReady, (exec_full_overrun h hti hri).1]
    cases commitsFrame i s <;> simp [frameReady]

/-! ### A commit and a TAKE in either order -/

/-- The state that a `TAKE` leaves (42_host_ops.md R172). -/
def State.afterTake (s : State) : State :=
  { respond (responseWord s.regs) s with regs := { s.regs with full := false, overrun := false } }

theorem exec_take (s : State) : exec .take s = .next s.afterTake := rfl

/-- A `TAKE` changes nothing that decides whether an operation commits. -/
theorem commitsFrame_afterTake (i : Instr) (s : State) : commitsFrame i s.afterTake = commitsFrame i s := by
  cases i <;> rfl

/-- A `TAKE` changes nothing that decides which bit an operation pushes. -/
theorem pushedBit_afterTake (i : Instr) (s : State) : pushedBit i s.afterTake = pushedBit i s := by
  cases i <;> rfl

/-- An operation that commits pushes the 59th bit, of a frame that passes every check (41_frame_decode.md R141 and
R148). -/
theorem last_bit_of_commits {i : Instr} {s : State} (h : commitsFrame i s = true) :
    ∃ b, pushedBit i s = some b ∧ s.regs.count.toNat = 58 ∧
      failedCheck s.cfg (setFrameBit s.regs.frame 58 b) = none := by
  unfold commitsFrame at h
  split at h
  · next b hb => exact ⟨b, hb, by simpa using h⟩
  · cases h

/-- An operation that commits completes, without the invariant: `COUNT` is 58. -/
theorem exec_completes_of_commits {i : Instr} {s : State} (h : commitsFrame i s = true) : ∃ t, exec i s = .next t := by
  obtain ⟨b, hb, hc, -⟩ := last_bit_of_commits h
  obtain ⟨ts, lvl, -, he⟩ := exec_of_last_bit hc hb
  exact ⟨_, he⟩

/-- The result that a commit leaves is that of the frame its bit completes (41_frame_decode.md R148). -/
theorem sameResult_of_commits {i : Instr} {s t : State} (hc : commitsFrame i s = true) (h : exec i s = .next t) :
    ∃ b, pushedBit i s = some b ∧ t.regs.SameResult (commitFrame (setFrameBit s.regs.frame 58 b) s.regs) := by
  obtain ⟨b, hb, hn, hp⟩ := last_bit_of_commits hc
  exact ⟨b, hb, sameResult_of_last_bit (BitVec.eq_of_toNat_eq hn) hb hp h⟩

/-- A commit leaves the same result whether a `TAKE` comes just before it or not: the two complete the same frame. -/
theorem commit_afterTake_sameResult {i : Instr} {s t u : State} (hc : commitsFrame i s = true)
    (ht : exec i s = .next t) (hu : exec i s.afterTake = .next u) : u.regs.SameResult t.regs := by
  obtain ⟨b, hb, ht⟩ := sameResult_of_commits hc ht
  obtain ⟨d, hd, hu⟩ := sameResult_of_commits ((commitsFrame_afterTake i s).trans hc) hu
  obtain rfl := Option.some.inj (hb.symm.trans ((pushedBit_afterTake i s).symm.trans hd))
  exact (SameReadBits.refl _).sameResult hu ht

/-- Settles O24: the commit after the `TAKE` finds `FULL` and `OVERRUN` cleared and completes the same frame; the `TAKE`
after the commit responds with the registers that the commit left. -/
theorem takeBeforeOrAfterTheCommit : Obligations.TakeBeforeOrAfterTheCommit := by
  intro ts lvl s t hc ht
  constructor
  · have hc' : commitsFrame (.edge ts lvl) s.afterTake = true := (commitsFrame_afterTake _ s).trans hc
    obtain ⟨u, hu⟩ := exec_completes_of_commits hc'
    obtain ⟨full, overrun⟩ := exec_full_overrun hu nofun nofun
    refine ⟨u, (execAll_cons (exec_take s) _).trans (execAll_cons hu []), ?_, ?_, ?_,
      commit_afterTake_sameResult hc ht hu⟩
    · rw [exec_edge_frame hu]
      rfl
    · simp [full, hc']
    · rw [overrun]
      rfl
  · refine ⟨t.afterTake, (execAll_cons ht _).trans (execAll_cons (exec_take t) []), ?_, rfl, .refl t.regs⟩
    rw [exec_edge_frame ht]
    rfl

end Sys2Proof.Machine
end

section
/-! PROOFS for spec 70_reset_and_hazards.md R232 and R240: how many accepted edges the first commit after reset needs, and
elapsed time below the wrap. For R232, `State.edgesToCommit` counts the accepted edges that a commit still needs; no
operation lowers it by more than the one edge that it accepts. -/

namespace Sys2Proof.Machine

/-! ### The accepted edges that a commit still needs -/

/-- The accepted edges needed before one that starts a frame (40_edge.md R107): a leading edge to measure the interval
from, and, where the levels alternate, a trailing edge after a leading one. -/
def State.edgesBeforeStart (s : State) (alternating : Bool) (last : Option Bool) : Nat :=
  if s.regs.lastLeadValid = false then 1 + alternating.toNat
  else if last = some s.cfg.pulseActiveLevel then alternating.toNat
  else 0

/-- The accepted edges that a commit still needs (40_edge.md R106 to R109), when the edge that starts a frame needs
`beforeStart` before it: two for each bit that `FRAME` lacks, but for the leading edge that `ReceivingOne` has seen. -/
def State.edgesToCommit (s : State) (beforeStart : Nat) : Nat :=
  match s.regs.state with
  | .powerOnDelay => beforeStart + 118
  | .syncSearch => beforeStart + 118
  | .receivingOne => 2 * (59 - s.regs.count.toNat) - 1
  | .receivingZero => 2 * (59 - s.regs.count.toNat)

/-- A search for a minute boundary lies before the whole frame. -/
theorem edgesToCommit_searching {s : State} (h : s.regs.state = .powerOnDelay ∨ s.regs.state = .syncSearch) (n : Nat) :
    s.edgesToCommit n = n + 118 := by
  rcases h with h | h <;> simp [State.edgesToCommit, h]

theorem edgesToCommit_receivingOne {s : State} (h : s.regs.state = .receivingOne) (n : Nat) :
    s.edgesToCommit n = 2 * (59 - s.regs.count.toNat) - 1 := by
  simp [State.edgesToCommit, h]

theorem edgesToCommit_receivingZero {s : State} (h : s.regs.state = .receivingZero) (n : Nat) :
    s.edgesToCommit n = 2 * (59 - s.regs.count.toNat) := by
  simp [State.edgesToCommit, h]

/-- No state needs more than a search does. -/
theorem edgesToCommit_le (s : State) (n : Nat) : s.edgesToCommit n ≤ n + 118 := by
  unfold State.edgesToCommit
  split <;> omega

/-- Reception needs no more than the frame. -/
theorem edgesToCommit_receiving_le {s : State} (h : s.Receiving) (n : Nat) : s.edgesToCommit n ≤ 118 := by
  rcases h with h | h <;> simp [State.edgesToCommit, h] <;> omega

/-- The edge that commits is accepted, and it is the only one needed. -/
theorem edgesToCommit_of_commits {i : Instr} {s : State} (h : commitsFrame i s = true) (n : Nat) :
    acceptsEdge i s = true ∧ s.edgesToCommit n = 1 := by
  obtain ⟨b, hb, hc, -⟩ := last_bit_of_commits h
  obtain ⟨ts, lvl, rfl, ha, hs, -, -⟩ := pushedBit_some hb
  exact ⟨(acceptsEdge_edge ts lvl s).trans (decide_eq_true ha), by simp [edgesToCommit_receivingOne hs, hc]⟩

/-! ### Before the start of a frame -/

/-- No state needs more before the start than one without a recorded leading edge. -/
theorem edgesBeforeStart_le (s : State) (alternating : Bool) (last : Option Bool) :
    s.edgesBeforeStart alternating last ≤ 1 + alternating.toNat := by
  unfold State.edgesBeforeStart
  split_ifs <;> omega

/-- A leading edge is recorded by an accepted leading edge alone (40_edge.md R111). -/
theorem lastLeadValid_of_accepted {ts : Ts} {lvl : Bool} {s t : State} (h : exec (.edge ts lvl) s = .next t)
    (ht : t.regs.lastLeadValid = true) : s.regs.lastLeadValid = true ∨ s.Leading lvl := by
  rcases exec_edge_effect h with ⟨-, rfl⟩ | ⟨-, q, hq, rfl⟩
  · exact .inl ht
  · rw [recordEdge_lastLeadValid, hq.lastLead.2, isLead_eq] at ht
    simp only [Bool.or_eq_true, Bool.and_eq_true, decide_eq_true_eq] at ht
    exact ht.symm.imp_right And.left

/-- An operation lowers the number of edges needed before the start by no more than the edge that it accepts. -/
theorem edgesBeforeStart_exec {alternating : Bool} {last : Option Bool} {i : Instr} {s t : State}
    (h : exec i s = .next t) :
    s.edgesBeforeStart alternating last ≤
      (acceptsEdge i s).toNat + t.edgesBeforeStart alternating (lastAccepted last [i] s) := by
  rcases exec_cases h with ⟨rfl, rfl⟩ | ⟨ts, lvl, rfl, he⟩ | ⟨rfl, rfl⟩ | ⟨rfl, rfl⟩
  · rw [lastAccepted_not_accepted h rfl]
    exact Nat.le_add_left _ _
  · rcases exec_edge_effect h with ⟨ha, rfl⟩ | ⟨ha, -⟩
    · rw [lastAccepted_not_accepted h ha]
      exact Nat.le_add_left _ _
    · rw [lastAccepted_accepted h ha, ha, Bool.toNat_true]
      have hle := alternating.toNat_le
      cases ht : t.regs.lastLeadValid with
      | false =>
        have := edgesBeforeStart_le s alternating last
        simp only [State.edgesBeforeStart, ht, if_true] at this ⊢
        omega
      | true =>
        have hc := exec_cfg h
        rcases lastLeadValid_of_accepted h ht with hv | hl
        · simp only [State.edgesBeforeStart, hv, Bool.true_eq_false, if_false]
          split_ifs <;> omega
        · have := edgesBeforeStart_le s alternating last
          simpa [State.edgesBeforeStart, ht, hc, hl] using this
  · rw [lastAccepted_not_accepted h rfl]
    exact Nat.le_add_left _ _
  · exact (edgesBeforeStart_le s alternating last).trans (Nat.le_add_left _ _)

/-- An edge that starts a frame is a leading edge after a recorded one (40_edge.md R107). -/
theorem accepted_lead_of_starts {i : Instr} {s : State} (h : startsFrame i s = true) :
    ∃ ts lvl, i = .edge ts lvl ∧ acceptsEdge i s = true ∧ s.Leading lvl ∧ s.regs.lastLeadValid = true := by
  cases i with
  | edge ts lvl =>
    simp only [startsFrame, minuteBoundary_eq, isLead_eq, Bool.and_eq_true, decide_eq_true_eq] at h
    obtain ⟨⟨ha, hl, hv, -⟩, -⟩ := h
    exact ⟨ts, lvl, rfl, ha, hl, hv⟩
  | nop => cases h
  | take => cases h
  | reset => cases h

/-- Nothing is needed before the edge that starts a frame; where the levels alternate, the last one was a trailing edge. -/
theorem edgesBeforeStart_of_starts {alternating : Bool} {last : Option Bool} {i : Instr} {s t : State}
    (h : exec i s = .next t) (hs : startsFrame i s = true)
    (ha : alternating = true → lastAccepted last [i] s ≠ last) : s.edgesBeforeStart alternating last = 0 := by
  obtain ⟨ts, lvl, rfl, hacc, hl, hv⟩ := accepted_lead_of_starts hs
  rw [lastAccepted_accepted h hacc, hl] at ha
  cases alternating with
  | false => simp [State.edgesBeforeStart, hv]
  | true => simp [State.edgesBeforeStart, hv, (ha rfl).symm]

/-! ### Along a run -/

/-- An accepted edge lowers the number of edges that a commit needs by one at most: reception goes on by one edge (40_edge.md
R108 and R109), starts with one, or is left for the search, which needs no fewer. -/
theorem EdgeRow.edgesToCommit_drop {ts : Ts} {lvl : Bool} {s t : State} (h : EdgeRow ts lvl s t) {m n : Nat}
    (keep : m ≤ 1 + n) (start : startsFrame (.edge ts lvl) s = true → m = 0) :
    s.edgesToCommit m ≤ 1 + t.edgesToCommit n := by
  cases h with
  | waiting _ _ _ _ after _ =>
    have := edgesToCommit_le s m
    rw [edgesToCommit_searching after]
    omega
  | searching _ _ _ _ after _ =>
    have := edgesToCommit_le s m
    rw [edgesToCommit_searching (.inr after)]
    omega
  | starting _ _ _ hs _ after count =>
    have := edgesToCommit_le s m
    simpa [edgesToCommit_receivingOne after, count, start hs] using this
  | failing before _ _ _ after _ =>
    have := edgesToCommit_receiving_le before m
    rw [edgesToCommit_searching (.inr after)]
    omega
  | restarting before _ _ _ _ after count =>
    simpa [edgesToCommit_receivingOne after, count] using edgesToCommit_receiving_le before m
  | pushing _ before _ _ _ _ _ after count =>
    rw [edgesToCommit_receivingOne before, edgesToCommit_receivingZero after]
    omega
  | completing _ before _ _ _ _ last _ _ =>
    rw [edgesToCommit_receivingOne before]
    omega
  | ticking before _ _ _ _ after count =>
    rw [edgesToCommit_receivingZero before, edgesToCommit_receivingOne after, count]
    omega

/-- Where `STATE` and `COUNT` stay, the number of edges that a commit needs falls no more than the number before the start. -/
theorem edgesToCommit_le_of_same {s t : State} {m n k : Nat} (hs : t.regs.state = s.regs.state)
    (hc : t.regs.count = s.regs.count) (hle : m ≤ k + n) : s.edgesToCommit m ≤ k + t.edgesToCommit n := by
  unfold State.edgesToCommit
  rw [hs, hc]
  split <;> omega

/-- Every operation lowers the number of edges that a commit needs by no more than the edge that it accepts. -/
theorem edgesToCommit_exec {i : Instr} {s t : State} (h : exec i s = .next t) {m n : Nat}
    (keep : m ≤ (acceptsEdge i s).toNat + n) (start : startsFrame i s = true → m = 0) :
    s.edgesToCommit m ≤ (acceptsEdge i s).toNat + t.edgesToCommit n := by
  rcases exec_cases h with ⟨rfl, rfl⟩ | ⟨ts, lvl, rfl, he⟩ | ⟨rfl, rfl⟩ | ⟨rfl, rfl⟩
  · exact edgesToCommit_le_of_same rfl rfl keep
  · rcases exec_edge_effect h with ⟨ha, rfl⟩ | ⟨ha, -⟩
    · exact edgesToCommit_le_of_same rfl rfl keep
    · rw [ha, Bool.toNat_true] at keep ⊢
      exact (edge_row h (of_decide_eq_true (acceptsEdge_edge ts lvl s ▸ ha))).edgesToCommit_drop keep start
  · exact edgesToCommit_le_of_same rfl rfl keep
  · have := edgesToCommit_le s m
    rw [edgesToCommit_searching (s := { s with regs := Regs.reset }) (.inl rfl)]
    omega

/-- The alternation of a sequence whose first operation answers. -/
theorem alternates_cons {last : Option Bool} {i : Instr} {is : List Instr} {s t : State} (h : exec i s = .next t) :
    alternates last (i :: is) s = true ↔
      (acceptsEdge i s = true → lastAccepted last [i] s ≠ last) ∧ alternates (lastAccepted last [i] s) is t = true := by
  simp [alternates, h, Bool.or_eq_true, imp_iff_not_or]

/-- A run that commits accepts the edges that a commit needs, more of them where it alternates. -/
theorem edgesToCommit_le_countAlong {alternating : Bool} {last : Option Bool} {is : List Instr} {s t : State}
    (h : execAll is s = .next t) (ha : alternating = true → alternates last is s = true)
    (hc : 1 ≤ countAlong commitsFrame is s) :
    s.edgesToCommit (s.edgesBeforeStart alternating last) ≤ countAlong acceptsEdge is s := by
  induction is generalizing last s with
  | nil => simp [countAlong] at hc
  | cons i is ih =>
    obtain ⟨u, hu, ht⟩ := execAll_cons_cases h
    simp only [alternates_cons hu, imp_and] at ha
    obtain ⟨first, rest⟩ := ha
    rw [countAlong_cons hu] at hc ⊢
    cases hci : commitsFrame i s with
    | true =>
      obtain ⟨hacc, one⟩ := edgesToCommit_of_commits hci (s.edgesBeforeStart alternating last)
      simp [hacc, one]
    | false =>
      rw [hci, Bool.toNat_false, Nat.zero_add] at hc
      have start (hs : startsFrame i s = true) : s.edgesBeforeStart alternating last = 0 := by
        obtain ⟨_, _, -, hacc, -⟩ := accepted_lead_of_starts hs
        exact edgesBeforeStart_of_starts hu hs fun alt => first alt hacc
      exact (edgesToCommit_exec hu (edgesBeforeStart_exec hu) start).trans (Nat.add_le_add_left (ih ht rest hc) _)

/-- At reset no leading edge is recorded: the frame needs that edge before it, and, where the levels alternate, one more. -/
theorem edgesToCommit_at_reset {s : State} (h : s.regs = State.reset.regs) (alternating : Bool) (last : Option Bool) :
    s.edgesToCommit (s.edgesBeforeStart alternating last) = 119 + alternating.toNat := by
  rw [edgesToCommit_searching (.inl (by rw [h]; rfl)), State.edgesBeforeStart, if_pos (by rw [h]; rfl)]
  omega

/-- Settles O52: at reset a commit still needs 119 edges, and the run accepts them. -/
theorem firstCommitNeedsManyEdges : Obligations.FirstCommitNeedsManyEdges := by
  intro is s t hs h hc
  exact (edgesToCommit_at_reset hs false none).ge.trans (edgesToCommit_le_countAlong h nofun hc)

/-- Settles O53: where the levels alternate, a commit at reset needs the trailing edge before the frame as well. -/
theorem alternatingEdgesNeedOneMore : Obligations.AlternatingEdgesNeedOneMore := by
  intro is s t hs h ha hc
  exact (edgesToCommit_at_reset hs true none).ge.trans (edgesToCommit_le_countAlong h (fun _ => ha) hc)

/-! ### Elapsed time -/

/-- Settles O26: the later reading is the earlier one and a distance below 2^N after it (`subN_stamp_add`). -/
theorem elapsedTimeBelowTheWrapIsExact : Obligations.ElapsedTimeBelowTheWrapIsExact := by
  intro c earlier later hN hle hlt
  obtain ⟨d, rfl⟩ := Nat.exists_eq_add_of_le hle
  rw [Nat.add_sub_cancel_left] at hlt ⊢
  exact subN_stamp_add hN earlier hlt

end Sys2Proof.Machine
end
